-- ==== Sys2Proof/Config.lean ====
section
/-! DEFINITION. The implementation parameters of the repacker (`00_scope.md` section 4), and the free values. -/

namespace Sys2Proof.Config

/-- `UNIT_BITS` (`00_scope.md` R5): a unit is 8 bits, fixed. -/
abbrev unitBits : Nat := 8

/-- A value the parameter `W_MAX` can take (`00_scope.md` R6): "a positive multiple of `UNIT_BITS`". `W_MAX` itself is
an argument of the functions that depend on it, and a machine holds its own in `State.wMax` (log entry 1). -/
def isWMax (wMax : Nat) : Bool := decide (0 < wMax) && decide (wMax % unitBits = 0)

/-- `W_MAX` of the default instance (`00_scope.md` R6), the one every encoding of the opcode table is written for. -/
abbrev wMax : Nat := 64

/-- `ARG_BITS`, the width of a command's operand (`00_scope.md` R7). -/
def argBits (wMax : Nat) : Nat := max 68 wMax

/-- `CW_BITS`, the width of a command word (`00_scope.md` R7). -/
def cwBits (wMax : Nat) : Nat := 4 + argBits wMax

/-- `K_MAX`, the largest group size (`00_scope.md` R7). -/
def kMax (wMax : Nat) : Nat := wMax / unitBits

/-! ## Free values (log entry 19)

Values the spec does not state, which no instruction meets in a run from reset. They have no body, so that nothing can
be proved of them. -/

/-- The shift of the shift resolver where its subtraction goes below zero (`42_shift_resolver.md` R91, R92): "the
subtraction in rules R91 and R92 never goes below zero" (R94) holds for a sub-chunk index of a legal pair only. -/
opaque unstatedShift (i small big : Nat) : Nat

/-- The result of `xform` on what is no chunk of its width (`92_eei_decisions.md` D32). -/
opaque unstatedChunk (v w : Nat) (du db : Bool) : Nat

end Sys2Proof.Config
end

