-- ==== Sys2Proof/Word.lean ====
section
/-! DEFINITION. The words that cross the ports and the words the registers hold (`00_scope.md` R7,
`10_state.md` R10, `30_encoding.md` R50, R58, R59). A word whose width depends on `W_MAX` (a command word, an operand,
a chunk on the output port, the accumulator) is a natural number, as the spec has unsigned integers (`00_scope.md`
section 5), and its width is a bound (log entry 14). -/

namespace Sys2Proof

/-- A width in bits, the `u32` of `input_width` and `output_width` (`10_state.md` R13). -/
abbrev Width : Type := BitVec 32

/-- The control word `CTRL` (`30_encoding.md` R58): `MODE` in bits 4 and 3, then `DU`, `DB`, `LW`. -/
abbrev ControlWord : Type := BitVec 5

/-- The status word (`30_encoding.md` R59). -/
abbrev StatusWord : Type := BitVec 48

end Sys2Proof
end

