-- ==== Sys2Proof/Syntax.lean ====
section
/-! DEFINITION. The endianness value (`40_endianness_descriptor.md` R70) and the instructions: one constructor for
each row of `spec/opcode_table.json`. -/

namespace Sys2Proof

/-- `unit_order` (`40_endianness_descriptor.md` R70). -/
inductive UnitOrder where
  | bigUnit
  | littleUnit
  deriving DecidableEq, Repr

/-- `bit_order` (`40_endianness_descriptor.md` R70). -/
inductive BitOrder where
  | bigBit
  | littleBit
  deriving DecidableEq, Repr

/-- An endianness is a pair of a unit order and a bit order, compared field by field
(`40_endianness_descriptor.md` R70, R74). -/
structure Endianness where
  unit : UnitOrder
  bit  : BitOrder
  deriving DecidableEq, Repr

/-- The reference form (`00_scope.md` section 6). -/
abbrev bigUnitBigBit : Endianness := ⟨.bigUnit, .bigBit⟩

abbrev littleUnitBigBit : Endianness := ⟨.littleUnit, .bigBit⟩

abbrev bigUnitLittleBit : Endianness := ⟨.bigUnit, .littleBit⟩

abbrev littleUnitLittleBit : Endianness := ⟨.littleUnit, .littleBit⟩

/-- The instructions. The first six are the command words of `30_encoding.md` R51. The last three are the rows of
format CTRL: a PUSH executed under that value of the control word (`30_encoding.md` R58), with the control bits the
row leaves free and the chunk of the PUSH (log entry 6). Ignored operand bits (R52, R60) are no operand. -/
inductive Instr where
  /-- RST, `47_commands.md` R151. -/
  | rst
  /-- CFG, `47_commands.md` R152, operands in the order of `30_encoding.md` R62. -/
  | cfg (inWidth : Width) (inEnd : Endianness) (outWidth : Width) (outEnd : Endianness)
  /-- PUSH, `47_commands.md` R153. -/
  | push (arg : Nat)
  /-- END, `47_commands.md` R157. -/
  | endStream
  /-- Opcodes `0x4` to `0x7`, `47_commands.md` R158: the operand is the low two bits of the opcode. -/
  | reserved47 (opLow : BitVec 2)
  /-- Opcodes `0x8` to `0xF`, `47_commands.md` R158: the operand is the low three bits of the opcode. -/
  | reserved8F (opLow : BitVec 3)
  /-- PUSH.EQ, `47_commands.md` R154, under `CTRL = 01ub0`. -/
  | pushEq (du db : Bool) (arg : Nat)
  /-- PUSH.IMP, `47_commands.md` R155, under `CTRL = 10ubl`. -/
  | pushImp (du db lw : Bool) (arg : Nat)
  /-- PUSH.EXP, `47_commands.md` R156, under `CTRL = 11ubl`. -/
  | pushExp (du db lw : Bool) (arg : Nat)
  deriving DecidableEq, Repr

end Sys2Proof
end

