-- ==== Sys2Proof/Decode.lean ====
section
/-! DEFINITION. From bits to instructions and back: command words (`30_encoding.md` R50 to R56, R60), control words
(R58), endianness codes (R56), and the encoder. -/

namespace Sys2Proof

/-! ## Endianness codes (`30_encoding.md` R56) -/

def UnitOrder.code : UnitOrder → BitVec 1
  | .bigUnit => 0#1
  | .littleUnit => 1#1

def BitOrder.code : BitOrder → BitVec 1
  | .bigBit => 0#1
  | .littleBit => 1#1

/-- Bit 0 of the code is `unit_order`, bit 1 is `bit_order`. -/
def Endianness.code (e : Endianness) : BitVec 2 := e.bit.code ++ e.unit.code

/-- All four codes are legal (`30_encoding.md` R56). -/
def Endianness.ofCode (c : BitVec 2) : Endianness where
  unit := if c.getLsbD 0 then .littleUnit else .bigUnit
  bit := if c.getLsbD 1 then .littleBit else .bigBit

/-! ## Fields of a command word (`30_encoding.md` R50, R53) -/

/-- `op`, the four bits above the operand. -/
def opField (wMax : Nat) (w : Nat) : BitVec 4 := BitVec.ofNat 4 (w / 2 ^ Config.argBits wMax)

/-- `arg`, the low `ARG_BITS` bits. -/
def argField (wMax : Nat) (w : Nat) : Nat := w % 2 ^ Config.argBits wMax

def inWidthField (a : Nat) : Width := BitVec.ofNat 32 a

def outWidthField (a : Nat) : Width := BitVec.ofNat 32 (a / 2 ^ 32)

def inEndField (a : Nat) : Endianness := .ofCode (BitVec.ofNat 2 (a / 2 ^ 64))

/-- Bits 67 and 66. The bits above, present where `W_MAX` is above 68, are ignored (`30_encoding.md` R53). -/
def outEndField (a : Nat) : Endianness := .ofCode (BitVec.ofNat 2 (a / 2 ^ 66))

/-- Decoding a command word of an instance `W_MAX`: `op` alone selects the command and its format (`30_encoding.md`
R50, R51). Total: every word is a command or a reserved opcode, and a reserved opcode is never an alias of another
command (R60). -/
def decode (wMax : Nat) (w : Nat) : Instr :=
  let op := opField wMax w
  let arg := argField wMax w
  if op = 0x0#4 then .rst
  else if op = 0x1#4 then
    .cfg (inWidthField arg) (inEndField arg) (outWidthField arg) (outEndField arg)
  else if op = 0x2#4 then .push arg
  else if op = 0x3#4 then .endStream
  else if op.getLsbD 3 then .reserved8F (op.extractLsb' 0 3)
  else .reserved47 (op.extractLsb' 0 2)

/-! ## Control words (`30_encoding.md` R58) -/

/-- Why bits are no instruction. -/
inductive DecodeError where
  /-- `CTRL = 00000`: no algorithm is selected, so no row of format CTRL. -/
  | noAlgorithm
  /-- `CTRL = 00xxx` other than `00000`, and `01xx1`: values that never occur. -/
  | neverOccurs
  /-- A control word selects what a PUSH does, and the command word is no PUSH. -/
  | notAPush
  deriving DecidableEq, Repr

/-- The row of format CTRL that a control word selects for a PUSH of `arg`. -/
def decodeControl (c : ControlWord) (arg : Nat) : Except DecodeError Instr :=
  let mode := c.extractLsb' 3 2
  let du := c.getLsbD 2
  let db := c.getLsbD 1
  let lw := c.getLsbD 0
  if mode = 0b01#2 then
    if lw then .error .neverOccurs else .ok (.pushEq du db arg)
  else if mode = 0b10#2 then .ok (.pushImp du db lw arg)
  else if mode = 0b11#2 then .ok (.pushExp du db lw arg)
  else if c = 0#5 then .error .noAlgorithm
  else .error .neverOccurs

/-! ## The encoder -/

/-- What stands for an instruction: a command word, or for a row of format CTRL the control word together with the
PUSH command word executed under it. -/
inductive Encoding where
  | command (w : Nat)
  | control (c : ControlWord) (w : Nat)
  deriving DecidableEq, Repr

/-- A command word from its two fields (`30_encoding.md` R50). An operand of more than `ARG_BITS` bits is in no command
word: the caller can send its low `ARG_BITS` bits only. -/
def commandWord (wMax : Nat) (op : BitVec 4) (arg : Nat) : Nat :=
  2 ^ Config.argBits wMax * op.toNat + arg % 2 ^ Config.argBits wMax

/-- The operand of CFG (`30_encoding.md` R53), the ignored bits zero. -/
def cfgArg (inWidth : Width) (inEnd : Endianness) (outWidth : Width) (outEnd : Endianness) : Nat :=
  2 ^ 66 * outEnd.code.toNat + 2 ^ 64 * inEnd.code.toNat + 2 ^ 32 * outWidth.toNat + inWidth.toNat

/-- The command word of a PUSH of `arg`. -/
def pushWord (wMax : Nat) (arg : Nat) : Nat := commandWord wMax 0x2#4 arg

/-- The control word from its fields, `MODE` as its 2-bit code (`30_encoding.md` R58). -/
def controlWordOf (mode : BitVec 2) (du db lw : Bool) : ControlWord :=
  mode ++ BitVec.ofBool du ++ BitVec.ofBool db ++ BitVec.ofBool lw

/-- The canonical encoding in an instance `W_MAX`: ignored bits are zero (`30_encoding.md` R52, R53, and log entry 11
for the reserved opcodes). -/
def encode (wMax : Nat) : Instr → Encoding
  | .rst => .command (commandWord wMax 0x0#4 0)
  | .cfg inWidth inEnd outWidth outEnd =>
    .command (commandWord wMax 0x1#4 (cfgArg inWidth inEnd outWidth outEnd))
  | .push arg => .command (pushWord wMax arg)
  | .endStream => .command (commandWord wMax 0x3#4 0)
  | .reserved47 opLow => .command (commandWord wMax (0b01#2 ++ opLow) 0)
  | .reserved8F opLow => .command (commandWord wMax (1#1 ++ opLow) 0)
  | .pushEq du db arg => .control (controlWordOf 0b01#2 du db false) (pushWord wMax arg)
  | .pushImp du db lw arg => .control (controlWordOf 0b10#2 du db lw) (pushWord wMax arg)
  | .pushExp du db lw arg => .control (controlWordOf 0b11#2 du db lw) (pushWord wMax arg)

/-- The command word of an instruction: for a row of format CTRL, the PUSH it is. -/
def Encoding.word : Encoding → Nat
  | .command w => w
  | .control _ w => w

/-- Decoding what the encoder writes. A control word with a command word that is no PUSH is rejected by name. -/
def decodeEncoding (wMax : Nat) : Encoding → Except DecodeError Instr
  | .command w => .ok (decode wMax w)
  | .control c w => if opField wMax w = 0x2#4 then decodeControl c (argField wMax w) else .error .notAPush

/-! ## Words as `spec/opcode_table.json` numbers them -/

/-- The instruction of a row of the table, which is written for the default instance: 72 bits are a command word, and
8 bits (5 in whole bytes) are a control word with the chunk 0, the bits above its five being zero (log entry 12). -/
def decodeTableWord (nbits w : Nat) : Option Instr :=
  if nbits = 72 then
    if w < 2 ^ 72 then some (decode Config.wMax w) else none
  else if nbits = 8 then
    if w < 2 ^ 5 then (decodeControl (BitVec.ofNat 5 w) 0).toOption else none
  else none

end Sys2Proof
end

