-- ==== Sys2Proof/Machine/State.lean ====
section
/-! DEFINITION. The architectural state: the thirteen registers of `10_state.md` R10, and what stands on the command
port and on the output port. The ways a step can stop. The state after reset (`10_state.md` R24). -/

namespace Sys2Proof.Machine

/-- `PHASE` (`10_state.md` R11). -/
inductive Phase where
  | idle
  | run
  | done
  | err
  deriving DecidableEq, Repr

/-- `CAUSE` (`60_exceptions.md` R191). Codes 9 to 15 are reserved and never written (log entry 9). -/
inductive Cause where
  | none
  | cfgZeroWidth
  | cfgNotDivisible
  | cfgWidthNotUnitMultiple
  | cfgWidthTooLarge
  | incompleteGroup
  | chunkRange
  | protocol
  | illegalCmd
  deriving DecidableEq, Repr

/-- `MODE` (`10_state.md` R14). -/
inductive Mode where
  | none
  | eq
  | imp
  | exp
  deriving DecidableEq, Repr

/-- The machine's state: plain data. -/
structure State where
  /-- `W_MAX` (`00_scope.md` R6), the parameter of this machine: the widest chunk it accepts. No register of the spec:
  which instance the machine is, written by nothing (log entry 1). -/
  wMax : Nat
  /-- `PHASE`, where the machine is in a call. -/
  phase : Phase
  /-- `CAUSE`, why the machine is in phase ERR. -/
  cause : Cause
  /-- `IN_WIDTH`. -/
  inWidth : Width
  /-- `OUT_WIDTH`. -/
  outWidth : Width
  /-- `IN_END`. -/
  inEnd : Endianness
  /-- `OUT_END`. -/
  outEnd : Endianness
  /-- `MODE`, the algorithm the dispatcher chose. -/
  mode : Mode
  /-- `DU`, set when the unit orders differ. -/
  du : Bool
  /-- `DB`, set when the bit orders differ. -/
  db : Bool
  /-- `LW`, set when the wide side's unit order is `little_unit`. -/
  lw : Bool
  /-- `K`, the group size. -/
  k : BitVec 32
  /-- `IDX`, the sub-chunk index of the next input chunk inside its group. -/
  idx : BitVec 32
  /-- `ACC`, the imploder's accumulator, of `W_MAX` bits (log entry 14). -/
  acc : Nat
  /-- The command words on the command port that the engine has not taken, oldest first (log entry 2). -/
  commandPort : List Nat
  /-- The chunks presented on the output port so far, in emission order (log entry 4). -/
  outputPort : List Nat
  deriving DecidableEq, Repr

/-- Why a meaning stops with a fault. No command a caller can send reaches it (log entry 6). -/
inductive Fault where
  /-- Raised by PUSH.EQ, PUSH.IMP and PUSH.EXP in phase RUN when `CTRL` is not the row's control word: the row is "the
  value of the internal control word CTRL under which a PUSH command word executes this rule". Safe. -/
  | controlMismatch
  deriving DecidableEq, Repr

/-- Why a meaning is missing. -/
inductive Refusal where
  /-- Raised by an arm of `exec` whose instruction has no meaning yet. No arm does. Safe. -/
  | notModelled (mnemonic : String)
  deriving DecidableEq, Repr

/-- What one command leads to. -/
abbrev Result : Type := Host.Outcome State Fault Refusal

/-- The state after reset of the machine of an instance `W_MAX`: every register zero (`10_state.md` R24,
`70_reset_and_hazards.md` R220), no command on the command port, nothing emitted. -/
def State.resetAt (wMax : Nat) : State where
  wMax := wMax
  phase := .idle
  cause := .none
  inWidth := 0
  outWidth := 0
  inEnd := bigUnitBigBit
  outEnd := bigUnitBigBit
  mode := .none
  du := false
  db := false
  lw := false
  k := 0
  idx := 0
  acc := 0
  commandPort := []
  outputPort := []

/-- The default instance (`00_scope.md` R6) after reset. -/
def State.reset : State := State.resetAt Config.wMax

end Sys2Proof.Machine
end

