-- ==== Sys2Proof/Machine/Flags.lean ====
section
/-! DEFINITION. Codes of the control fields, the control word (`30_encoding.md` R58) and the status word (R59). -/

namespace Sys2Proof.Machine

/-- The code of `PHASE` (`10_state.md` R11). -/
def Phase.code : Phase → BitVec 2
  | .idle => 0
  | .run => 1
  | .done => 2
  | .err => 3

/-- The code of `CAUSE` (`60_exceptions.md` R191). -/
def Cause.code : Cause → BitVec 4
  | .none => 0
  | .cfgZeroWidth => 1
  | .cfgNotDivisible => 2
  | .cfgWidthNotUnitMultiple => 3
  | .cfgWidthTooLarge => 4
  | .incompleteGroup => 5
  | .chunkRange => 6
  | .protocol => 7
  | .illegalCmd => 8

/-- The code of `MODE` (`10_state.md` R14). -/
def Mode.code : Mode → BitVec 2
  | .none => 0
  | .eq => 1
  | .imp => 2
  | .exp => 3

/-- The class ConfigurationError (`60_exceptions.md` R192): causes 1 to 4. -/
def Cause.isConfigurationError (c : Cause) : Bool := decide (1#4 ≤ c.code) && decide (c.code ≤ 4#4)

/-- `CTRL` (`30_encoding.md` R58): `MODE` in bits 4 and 3, `DU` in bit 2, `DB` in bit 1, `LW` in bit 0. -/
def State.controlWord (s : State) : ControlWord := controlWordOf s.mode.code s.du s.db s.lw

/-- The status word (`30_encoding.md` R59), readable at any time (`10_state.md` R20). -/
def State.statusWord (s : State) : StatusWord :=
  s.k ++ 0#5 ++ BitVec.ofBool s.lw ++ BitVec.ofBool s.db ++ BitVec.ofBool s.du ++ s.mode.code ++ s.cause.code ++
    s.phase.code

end Sys2Proof.Machine
end

