-- ==== Sys2Proof/Machine/Operands.lean ====
section
/-! DEFINITION. The operand forms. Format N has no operand (`30_encoding.md` R52), format C is four fields taken as
they stand (R53, R55, decoded in `Decode.lean`), format D is one chunk (R54), and a chunk on the output port is
zero-extended (`20_memory.md` R33). -/

namespace Sys2Proof.Machine

/-- Format D (`30_encoding.md` R54): the operand is a chunk of the input width. -/
def chunkFits (arg : Nat) (inWidth : Width) : Bool := decide (arg < 2 ^ inWidth.toNat)

/-- A value in the bits of an output chunk: the chunk is "in bits `OUT_WIDTH-1` down to 0 and zeros above", in `W_MAX`
bits (`20_memory.md` R33), and so is the accumulator (`10_state.md` R10, R17). A chunk of the output width keeps its
value (log entry 16). -/
def presented (wMax outWidth v : Nat) : Nat := v % 2 ^ min outWidth wMax

end Sys2Proof.Machine
end

