-- ==== Sys2Proof/Machine/Descriptor.lean ====
section
/-! DEFINITION. The endianness descriptor's classifications (`40_endianness_descriptor.md` R71 to R75). -/

namespace Sys2Proof.Machine

/-- `unit_is_little` (`40_endianness_descriptor.md` R71). -/
def unitIsLittle (e : Endianness) : Bool := e.unit == .littleUnit

/-- `bit_is_little` (`40_endianness_descriptor.md` R71). -/
def bitIsLittle (e : Endianness) : Bool := e.bit == .littleBit

/-- `same_unit_order` (`40_endianness_descriptor.md` R72). -/
def sameUnitOrder (a b : Endianness) : Bool := a.unit == b.unit

/-- `same_bit_order` (`40_endianness_descriptor.md` R73). -/
def sameBitOrder (a b : Endianness) : Bool := a.bit == b.bit

/-- `endian_eq` (`40_endianness_descriptor.md` R74). -/
def endianEq (a b : Endianness) : Bool := sameUnitOrder a b && sameBitOrder a b

/-- `du`, true when the unit orders differ (`46_dispatcher.md` R133). -/
def unitOrdersDiffer (ie oe : Endianness) : Bool := !sameUnitOrder ie oe

/-- `db`, true when the bit orders differ (`46_dispatcher.md` R133). -/
def bitOrdersDiffer (ie oe : Endianness) : Bool := !sameBitOrder ie oe

end Sys2Proof.Machine
end

