-- ==== Sys2Proof/Machine/Reversers.lean ====
section
/-! DEFINITION. The unit reverser, the bit reverser and the selection between them (`41_reversers.md`). A chunk is a
natural number below `2 ^ w`. Each function stands twice: its body on all numbers, and with a question mark the
function of the spec, which has no value outside its preconditions (`92_eei_decisions.md` D32, log entry 10). -/

namespace Sys2Proof.Machine

/-- `mask(n)` (`00_scope.md` R8). -/
def mask (n : Nat) : Nat := 2 ^ n - 1

/-- The loop `r = 0; for j in 0..n: r = r OR f(j)` of the reversers' pseudocode. -/
def orOver (n : Nat) (f : Nat → Nat) : Nat := (List.range n).foldl (fun r j => r ||| f j) 0

/-- Unit `j` of a chunk, counted from the least significant (`00_scope.md` section 5). -/
def unitOf (v j : Nat) : Nat := (v >>> (j * Config.unitBits)) &&& mask Config.unitBits

/-- `rev_units` (`41_reversers.md` R80). -/
def revUnits (v w : Nat) : Nat :=
  let n := w / Config.unitBits
  orOver n fun j => unitOf v j <<< ((n - 1 - j) * Config.unitBits)

/-- `bitrev_unit` (`41_reversers.md` R81). -/
def bitrevUnit (b : Nat) : Nat :=
  orOver Config.unitBits fun t => (b.testBit t).toNat <<< (Config.unitBits - 1 - t)

/-- `rev_bits` (`41_reversers.md` R82): one crossing for each unit, none across a unit boundary (R85). -/
def revBits (v w : Nat) : Nat :=
  orOver (w / Config.unitBits) fun j => bitrevUnit (unitOf v j) <<< (j * Config.unitBits)

/-- `xform` (`41_reversers.md` R84): unit reversal first, then bit reversal. -/
def xform (v w : Nat) (du db : Bool) : Nat :=
  let a := if du then revUnits v w else v
  if db then revBits a w else a

/-- A width of this hardware: a positive multiple of 8 (`20_memory.md` R31). -/
def isChunkWidth (w : Nat) : Bool := decide (0 < w) && decide (w % Config.unitBits = 0)

/-- A chunk of width `w` (`20_memory.md` R31): `w` is a width and `0 <= v < 2 ^ w`. -/
def isChunk (v w : Nat) : Bool := isChunkWidth w && decide (v < 2 ^ w)

/-- `rev_units` with its precondition (`41_reversers.md` R80). -/
def revUnits? (v w : Nat) : Option Nat := if isChunk v w then some (revUnits v w) else none

/-- `bitrev_unit` with its precondition (`41_reversers.md` R81). -/
def bitrevUnit? (b : Nat) : Option Nat :=
  if b < 2 ^ Config.unitBits then some (bitrevUnit b) else none

/-- `rev_bits` with its precondition (`41_reversers.md` R82). -/
def revBits? (v w : Nat) : Option Nat := if isChunk v w then some (revBits v w) else none

/-- `xform` with its precondition (`41_reversers.md` R84). -/
def xform? (v w : Nat) (du db : Bool) : Option Nat := if isChunk v w then some (xform v w du db) else none

/-- `xform` as a data path has it (`47_commands.md` R154 to R156): the value of the spec, and a free value on what is no
chunk of its width (log entry 19). -/
def xformOrFree (v w : Nat) (du db : Bool) : Nat := (xform? v w du db).getD (Config.unstatedChunk v w du db)

end Sys2Proof.Machine
end

