-- ==== Sys2Proof/Machine/EqualSize.lean ====
section
/-! DEFINITION. The equal-size converter (`45_equal_size.md`). -/

namespace Sys2Proof.Machine

/-- `convert_equal` (`45_equal_size.md` R121). -/
def convertEqual (x w : Nat) (ie oe : Endianness) : Nat :=
  xform x w (unitOrdersDiffer ie oe) (bitOrdersDiffer ie oe)

/-- `convert_stream` (`45_equal_size.md` R122). -/
def convertStream (xs : List Nat) (w : Nat) (ie oe : Endianness) : List Nat :=
  xs.map fun x => convertEqual x w ie oe

/-- `convert_equal` with its precondition (`45_equal_size.md` R120). -/
def convertEqual? (x w : Nat) (ie oe : Endianness) : Option Nat :=
  if isChunk x w then some (convertEqual x w ie oe) else none

/-- `convert_stream` with its precondition (`45_equal_size.md` R120, R122). -/
def convertStream? (xs : List Nat) (w : Nat) (ie oe : Endianness) : Option (List Nat) :=
  if isChunkWidth w && xs.all (isChunk · w) then some (convertStream xs w ie oe) else none

end Sys2Proof.Machine
end

