-- ==== Sys2Proof/Machine/ShiftResolver.lean ====
section
/-! DEFINITION. The shift resolver (`42_shift_resolver.md`). The unit order of the wide side decides, never a bit
order (R95, `90_conflicts.md` C1). -/

namespace Sys2Proof.Machine

/-- Already-processed bits `p` (`42_shift_resolver.md` R90). -/
def processedBits (i small : Nat) : Nat := i * small

/-- The shift of sub-chunk `i`, where `wideLittle` says that the wide side's unit order is `little_unit`
(`42_shift_resolver.md` R91, R92 read with `small` and `big`, R93). -/
def placeShift (wideLittle : Bool) (i small big : Nat) : Nat :=
  if wideLittle then processedBits i small else big - (small + processedBits i small)

/-- `shift_imp` (`42_shift_resolver.md` R91). -/
def shiftImp (i iw ow : Nat) (oe : Endianness) : Nat := placeShift (unitIsLittle oe) i iw ow

/-- `shift_exp` (`42_shift_resolver.md` R92). -/
def shiftExp (i iw ow : Nat) (ie : Endianness) : Nat := placeShift (unitIsLittle ie) i ow iw

/-- The widths of a group: both are widths and the small one divides the big one. -/
def isRatio (small big : Nat) : Bool := isChunkWidth small && isChunkWidth big && decide (big % small = 0)

/-- `shift_imp` with its precondition: `i` is a sub-chunk index of the group (`42_shift_resolver.md`, symbols). -/
def shiftImp? (i iw ow : Nat) (oe : Endianness) : Option Nat :=
  if isRatio iw ow && decide (i < ow / iw) then some (shiftImp i iw ow oe) else none

/-- `shift_exp` with its precondition: `i` is a sub-chunk index of the group (`42_shift_resolver.md`, symbols). -/
def shiftExp? (i iw ow : Nat) (ie : Endianness) : Option Nat :=
  if isRatio ow iw && decide (i < iw / ow) then some (shiftExp i iw ow ie) else none

/-- The shift as a data path computes it from the registers (`47_commands.md` R155, R156), and a free value where the
subtraction goes below zero (log entry 19). -/
def shiftOrFree (wideLittle : Bool) (i small big : Nat) : Nat :=
  if wideLittle = true ∨ small + processedBits i small ≤ big then placeShift wideLittle i small big
  else Config.unstatedShift i small big

end Sys2Proof.Machine
end

