-- ==== Sys2Proof/Machine/Exploder.lean ====
section
/-! DEFINITION. The exploder (`44_exploder.md`). -/

namespace Sys2Proof.Machine

/-- Output chunk `i` of the exploder (`44_exploder.md` R111, `47_commands.md` R156): the window at the shift of
sub-chunk `i`, masked to the output width, then transformed at the output width. -/
def explodePiece (wideLittle du db : Bool) (iw ow x i : Nat) : Nat :=
  xform ((x >>> placeShift wideLittle i ow iw) &&& mask ow) ow du db

/-- The exploder's loop: the pieces 0 to `k - 1`, in increasing index. -/
def explodeBurst (wideLittle du db : Bool) (iw ow k x : Nat) : List Nat :=
  (List.range k).map (explodePiece wideLittle du db iw ow x)

/-- `explode_chunk` (`44_exploder.md` R111). -/
def explodeChunk (x iw : Nat) (ie : Endianness) (ow : Nat) (oe : Endianness) : List Nat :=
  explodeBurst (unitIsLittle ie) (unitOrdersDiffer ie oe) (bitOrdersDiffer ie oe) iw ow (iw / ow) x

/-- `explode_stream` (`44_exploder.md` R112). -/
def explodeStream (xs : List Nat) (iw : Nat) (ie : Endianness) (ow : Nat) (oe : Endianness) : List Nat :=
  xs.flatMap fun x => explodeChunk x iw ie ow oe

/-- `explode_chunk` with its preconditions (`44_exploder.md` R110). -/
def explodeChunk? (x iw : Nat) (ie : Endianness) (ow : Nat) (oe : Endianness) : Option (List Nat) :=
  if isRatio ow iw && isChunk x iw then some (explodeChunk x iw ie ow oe) else none

/-- `explode_stream` with its preconditions (`44_exploder.md` R110, R112). -/
def explodeStream? (xs : List Nat) (iw : Nat) (ie : Endianness) (ow : Nat) (oe : Endianness) :
    Option (List Nat) :=
  if isRatio ow iw && xs.all (isChunk · iw) then some (explodeStream xs iw ie ow oe) else none

end Sys2Proof.Machine
end

