-- ==== Sys2Proof/Machine/Imploder.lean ====
section
/-! DEFINITION. The imploder (`43_imploder.md`). -/

namespace Sys2Proof.Machine

/-- One turn of the imploder's loop (`43_imploder.md` R101, `47_commands.md` R155): the chunk is transformed at the
input width, then placed in the accumulator at the shift of sub-chunk `i`. -/
def implodeStep (wideLittle du db : Bool) (iw ow i acc x : Nat) : Nat :=
  acc ||| (xform x iw du db <<< placeShift wideLittle i iw ow)

/-- The imploder's loop from sub-chunk `i` and accumulator `acc` on, over the rest of a group. -/
def implodeFrom (wideLittle du db : Bool) (iw ow : Nat) : Nat → Nat → List Nat → Nat
  | _, acc, [] => acc
  | i, acc, x :: g =>
    implodeFrom wideLittle du db iw ow (i + 1) (implodeStep wideLittle du db iw ow i acc x) g

/-- `implode_group` (`43_imploder.md` R101): the accumulator starts at 0. -/
def implodeGroup (g : List Nat) (iw : Nat) (ie : Endianness) (ow : Nat) (oe : Endianness) : Nat :=
  implodeFrom (unitIsLittle oe) (unitOrdersDiffer ie oe) (bitOrdersDiffer ie oe) iw ow 0 0 g

/-- Group `q` of a stream, in groups of `k` (`43_imploder.md` R102). -/
def groupOf (k q : Nat) (xs : List Nat) : List Nat := (xs.drop (q * k)).take k

/-- `implode_stream` (`43_imploder.md` R102). -/
def implodeStream (xs : List Nat) (iw : Nat) (ie : Endianness) (ow : Nat) (oe : Endianness) : List Nat :=
  let k := ow / iw
  (List.range (xs.length / k)).map fun q => implodeGroup (groupOf k q xs) iw ie ow oe

/-- `implode_group` with its preconditions (`43_imploder.md` R100): the group has `k` chunks of width `iw`. -/
def implodeGroup? (g : List Nat) (iw : Nat) (ie : Endianness) (ow : Nat) (oe : Endianness) : Option Nat :=
  if isRatio iw ow && decide (g.length = ow / iw) && g.all (isChunk · iw) then
    some (implodeGroup g iw ie ow oe)
  else none

/-- `implode_stream` with its preconditions (`43_imploder.md` R100, R102): whole groups of chunks of width `iw`. -/
def implodeStream? (xs : List Nat) (iw : Nat) (ie : Endianness) (ow : Nat) (oe : Endianness) :
    Option (List Nat) :=
  if isRatio iw ow && decide (xs.length % (ow / iw) = 0) && xs.all (isChunk · iw) then
    some (implodeStream xs iw ie ow oe)
  else none

end Sys2Proof.Machine
end

