-- ==== Sys2Proof/Machine/Packer.lean ====
section
/-! DEFINITION. The packer: validation, selection, the controls of a call, and the reference function `pack`
(`46_dispatcher.md`). `wMax` is an argument here (`92_eei_decisions.md` D9). -/

namespace Sys2Proof.Machine

/-- `validate` (`46_dispatcher.md` R131): the checks in this order, the first that fails gives the cause. -/
def validate (wMax iw ow : Nat) : Cause :=
  if iw = 0 ∨ ow = 0 then .cfgZeroWidth
  else if iw % Config.unitBits ≠ 0 ∨ ow % Config.unitBits ≠ 0 then .cfgWidthNotUnitMultiple
  else if wMax < iw ∨ wMax < ow then .cfgWidthTooLarge
  else if iw % ow ≠ 0 ∧ ow % iw ≠ 0 then .cfgNotDivisible
  else .none

/-- `select` (`46_dispatcher.md` R132): the algorithm and the group size. -/
def select (iw ow : Nat) : Mode × Nat :=
  if iw = ow then (.eq, 1)
  else if iw < ow then (.imp, ow / iw)
  else (.exp, iw / ow)

/-- `select` with its precondition: a validated pair (`46_dispatcher.md` R132). -/
def select? (wMax iw ow : Nat) : Option (Mode × Nat) :=
  if validate wMax iw ow = .none then some (select iw ow) else none

/-- `lw` (`46_dispatcher.md` R133, `10_state.md` R14): the wide side is `little_unit`. -/
def wideIsLittle (m : Mode) (ie oe : Endianness) : Bool :=
  match m with
  | .none => false
  | .eq => false
  | .imp => unitIsLittle oe
  | .exp => unitIsLittle ie

/-- The result of `pack`: a stream or an error, never both (`46_dispatcher.md` R135). -/
inductive PackResult where
  | ok (ys : List Nat)
  | err (c : Cause)
  deriving DecidableEq, Repr

/-- `pack` (`46_dispatcher.md` R134). -/
def pack (wMax : Nat) (xs : List Nat) (iw : Nat) (ie : Endianness) (ow : Nat) (oe : Endianness) : PackResult :=
  if validate wMax iw ow ≠ .none then .err (validate wMax iw ow)
  else if xs.any (fun x => decide (2 ^ iw ≤ x)) then .err .chunkRange
  else
    let chosen := select iw ow
    if chosen.1 = .eq then .ok (convertStream xs iw ie oe)
    else if chosen.1 = .imp then
      if xs.length % chosen.2 ≠ 0 then .err .incompleteGroup else .ok (implodeStream xs iw ie ow oe)
    else .ok (explodeStream xs iw ie ow oe)

end Sys2Proof.Machine
end

