-- ==== Sys2Proof/Machine/Ops.lean ====
section
/-! DEFINITION. The operations the meanings share: taking a command from its port, emitting, entering the error
phase, starting a call (which is also the way out of the error phase), and the data paths of PUSH. -/

namespace Sys2Proof.Machine

/-- The command has been taken from the command port (`20_memory.md` R39, `47_commands.md` R150). -/
def State.takeCommand (s : State) : State := { s with commandPort := s.commandPort.tail }

/-- `emit` for a burst (`20_memory.md` R33): the chunks are appended to the output stream in the order given. -/
def State.emit (s : State) (burst : List Nat) : State :=
  { s with outputPort := s.outputPort ++ burst.map (presented s.wMax s.outWidth.toNat) }

/-- `raise c` (`60_exceptions.md` R196): the configuration registers keep their values, nothing is saved and nothing
is emitted. -/
def State.raise (s : State) (c : Cause) : State :=
  { s with
    phase := .err, cause := c, mode := .none, du := false, db := false, lw := false, k := 0, idx := 0, acc := 0 }

/-- Every register takes its reset value (`47_commands.md` R151). The ports are no registers: commands not yet taken
stay, and emitted chunks cannot be taken back (R161, log entry 8). -/
def State.clearRegisters (s : State) : State :=
  { State.resetAt s.wMax with commandPort := s.commandPort, outputPort := s.outputPort }

/-- Starting a call (`47_commands.md` R152): the four arguments are latched, the outcome of `validate` decides between
phase RUN with the controls of `46_dispatcher.md` R132 and R133 and the error phase. With RST it is the only way out of
the error phase (`60_exceptions.md` R201). -/
def State.configure (s : State) (iw : Width) (ie : Endianness) (ow : Width) (oe : Endianness) : State :=
  let latched : State :=
    { s with inWidth := iw, outWidth := ow, inEnd := ie, outEnd := oe, cause := .none, idx := 0, acc := 0 }
  let verdict := validate s.wMax iw.toNat ow.toNat
  if verdict ≠ .none then latched.raise verdict
  else
    let chosen := select iw.toNat ow.toNat
    { latched with
      phase := .run
      mode := chosen.1
      k := BitVec.ofNat 32 chosen.2
      du := unitOrdersDiffer ie oe
      db := bitOrdersDiffer ie oe
      lw := wideIsLittle chosen.1 ie oe }

/-- The order of a PUSH's tests (`47_commands.md` R153, `60_exceptions.md` R197 c): phase ERR, then PROTOCOL, then
CHUNK_RANGE, then the data path. -/
def pushTested (arg : Nat) (s : State) (path : Result) : Result :=
  match s.phase with
  | .err => .next s
  | .idle => .next (s.raise .protocol)
  | .done => .next (s.raise .protocol)
  | .run => if chunkFits arg s.inWidth then path else .next (s.raise .chunkRange)

/-- The equal-size data path (`47_commands.md` R154). -/
def pushEqPath (arg : Nat) (s : State) : State := s.emit [xformOrFree arg s.inWidth.toNat s.du s.db]

/-- The accumulator after the chunk of a PUSH is placed (`47_commands.md` R155). -/
def State.accumulated (s : State) (arg : Nat) : Nat :=
  presented s.wMax s.outWidth.toNat
    (s.acc ||| (xformOrFree arg s.inWidth.toNat s.du s.db <<<
      shiftOrFree s.lw s.idx.toNat s.inWidth.toNat s.outWidth.toNat))

/-- The imploder's data path (`47_commands.md` R155): the last chunk of a group emits the accumulator and clears it,
any other chunk advances the sub-chunk index, which wraps in states outside R22 only (log entry 19). -/
def pushImpPath (arg : Nat) (s : State) : State :=
  if s.idx.toNat + 1 = s.k.toNat then { s.emit [s.accumulated arg] with acc := 0, idx := 0 }
  else { s with acc := s.accumulated arg, idx := s.idx + 1 }

/-- Output chunk `i` of the exploder, from the registers (`47_commands.md` R156). -/
def State.exploded (s : State) (arg i : Nat) : Nat :=
  xformOrFree
    ((arg >>> shiftOrFree s.lw i s.outWidth.toNat s.inWidth.toNat) &&& mask s.outWidth.toNat)
    s.outWidth.toNat s.du s.db

/-- The exploder's data path (`47_commands.md` R156): "those K chunks, in increasing i". -/
def pushExpPath (arg : Nat) (s : State) : State := s.emit ((List.range s.k.toNat).map (s.exploded arg))

/-- A row of format CTRL is executed under its own control word only (`30_encoding.md` R58, log entry 6). -/
def underControl (c : ControlWord) (s : State) (path : Result) : Result :=
  if s.controlWord = c then path else .fault .controlMismatch

end Sys2Proof.Machine
end

