-- ==== Sys2Proof/Machine/Push.lean ====
section
/-! DEFINITION. The PUSH family: the command (`47_commands.md` R153) and the three rows of format CTRL it dispatches to
(R154, R155, R156). -/

namespace Sys2Proof.Machine

/-- PUSH (`47_commands.md` R153): `MODE` selects the data path, EQ and IMP by name and anything "else" R156. In phase
RUN `MODE` is never NONE (`10_state.md` R22), and what a PUSH does there is the model's choice (log entry 19). -/
def execPush (arg : Nat) (s : State) : Result :=
  let t := s.takeCommand
  pushTested arg t <| .next <|
    match t.mode with
    | .eq => pushEqPath arg t
    | .imp => pushImpPath arg t
    | .exp => pushExpPath arg t
    | .none => pushExpPath arg t

/-- PUSH.EQ (`47_commands.md` R154): a PUSH under `CTRL = 01ub0`. -/
def execPushEq (du db : Bool) (arg : Nat) (s : State) : Result :=
  let t := s.takeCommand
  pushTested arg t (underControl (controlWordOf 0b01#2 du db false) t (.next (pushEqPath arg t)))

/-- PUSH.IMP (`47_commands.md` R155): a PUSH under `CTRL = 10ubl`. -/
def execPushImp (du db lw : Bool) (arg : Nat) (s : State) : Result :=
  let t := s.takeCommand
  pushTested arg t (underControl (controlWordOf 0b10#2 du db lw) t (.next (pushImpPath arg t)))

/-- PUSH.EXP (`47_commands.md` R156): a PUSH under `CTRL = 11ubl`. -/
def execPushExp (du db lw : Bool) (arg : Nat) (s : State) : Result :=
  let t := s.takeCommand
  pushTested arg t (underControl (controlWordOf 0b11#2 du db lw) t (.next (pushExpPath arg t)))

end Sys2Proof.Machine
end

