-- ==== Sys2Proof/Machine/Session.lean ====
section
/-! DEFINITION. The commands that open, close and abandon a call: RST, CFG, END (`47_commands.md` R151, R152, R157),
and the reserved opcodes (R158). -/

namespace Sys2Proof.Machine

/-- RST (`47_commands.md` R151). -/
def execRst (s : State) : Result := .next s.takeCommand.clearRegisters

/-- CFG (`47_commands.md` R152), accepted in every phase. -/
def execCfg (iw : Width) (ie : Endianness) (ow : Width) (oe : Endianness) (s : State) : Result :=
  .next (s.takeCommand.configure iw ie ow oe)

/-- END (`47_commands.md` R157): in phase RUN a partial group is an error, and anything else closes the call. -/
def execEndStream (s : State) : Result :=
  let t := s.takeCommand
  match s.phase with
  | .err => .next t
  | .idle => .next (t.raise .protocol)
  | .done => .next (t.raise .protocol)
  | .run =>
    if s.mode = .imp ∧ s.idx ≠ 0 then .next (t.raise .incompleteGroup) else .next { t with phase := .done }

/-- What every reserved opcode does (`47_commands.md` R158). -/
def rejectOpcode (s : State) : Result :=
  if s.phase = .err then .next s else .next (s.raise .illegalCmd)

/-- A reserved opcode from `0x4` to `0x7` (`47_commands.md` R158): the low bits are "any". -/
def execReserved47 (_opLow : BitVec 2) (s : State) : Result := rejectOpcode s.takeCommand

/-- A reserved opcode from `0x8` to `0xF` (`47_commands.md` R158): the low bits are "any". -/
def execReserved8F (_opLow : BitVec 3) (s : State) : Result := rejectOpcode s.takeCommand

end Sys2Proof.Machine
end

