-- ==== Sys2Proof/Machine/Dispatch.lean ====
section
/-! DEFINITION. The dispatch of an instruction to its meaning, one arm for each constructor. -/

namespace Sys2Proof.Machine

/-- The meaning of an instruction. -/
def exec (i : Instr) (s : State) : Host.Outcome State Fault Refusal :=
  match i with
  | .rst => Sys2Proof.Machine.execRst s
  | .cfg iw ie ow oe => Sys2Proof.Machine.execCfg iw ie ow oe s
  | .push arg => Sys2Proof.Machine.execPush arg s
  | .endStream => Sys2Proof.Machine.execEndStream s
  | .reserved47 opLow => Sys2Proof.Machine.execReserved47 opLow s
  | .reserved8F opLow => Sys2Proof.Machine.execReserved8F opLow s
  | .pushEq du db arg => Sys2Proof.Machine.execPushEq du db arg s
  | .pushImp du db lw arg => Sys2Proof.Machine.execPushImp du db lw arg s
  | .pushExp du db lw arg => Sys2Proof.Machine.execPushExp du db lw arg s

end Sys2Proof.Machine
end

