-- ==== Sys2Proof/Machine/Fetch.lean ====
section
/-! DEFINITION. The command port: what the engine takes next, and how the caller places a command (`20_memory.md` R39,
`10_state.md` R12). -/

namespace Sys2Proof.Machine

/-- The command the engine takes next, if the caller has sent one. -/
def State.nextCommand? (s : State) : Option Nat := s.commandPort.head?

/-- The caller sends command words, after those not taken yet (`20_memory.md` R39). -/
def State.send (s : State) (ws : List Nat) : State := { s with commandPort := s.commandPort ++ ws }

/-- A command word placed so that it is the next one taken (log entry 5). -/
def State.place (s : State) (w : Nat) : State := { s with commandPort := w :: s.commandPort }

/-- A configured call under which a PUSH is the given row of format CTRL: widths 8 and 8, 8 and 16, 16 and 8, and the
endiannesses that give its control bits (log entry 5). Other instructions need no configuration. -/
def State.selectRow (s : State) : Instr → State
  | .rst => s
  | .cfg _ _ _ _ => s
  | .push _ => s
  | .endStream => s
  | .reserved47 _ => s
  | .reserved8F _ => s
  | .pushEq du db _ => s.configure 8 (.ofCode (BitVec.ofBool db ++ BitVec.ofBool du)) 8 (.ofCode 0#2)
  | .pushImp du db lw _ =>
    s.configure 8 (.ofCode (BitVec.ofBool db ++ BitVec.ofBool (du ^^ lw))) 16
      (.ofCode (0#1 ++ BitVec.ofBool lw))
  | .pushExp du db lw _ =>
    s.configure 16 (.ofCode (0#1 ++ BitVec.ofBool lw)) 8
      (.ofCode (BitVec.ofBool db ++ BitVec.ofBool (du ^^ lw)))

/-- An instruction placed so that it is the next one run. -/
def State.placeInstr (s : State) (i : Instr) : State := (s.selectRow i).place (encode s.wMax i).word

/-- A command word of the opcode table, which has the 68 operand bits of the default instance, with its operand
zero-extended to the `ARG_BITS` of another instance. In the default instance it stands as it is. -/
def widenTableWord (wMax w : Nat) : Nat := 2 ^ Config.argBits wMax * (w / 2 ^ 68) + w % 2 ^ 68

/-- The state in which the next step runs the instruction of a table word, for `withFetchWord`. A command word is placed
with its ignored bits. A table word that is no instruction changes nothing. -/
def State.placeTableWord (s : State) (nbits w : Nat) : State :=
  if nbits = 72 then s.place (widenTableWord s.wMax w)
  else
    match decodeTableWord nbits w with
    | some i => s.placeInstr i
    | none => s

end Sys2Proof.Machine
end

