-- ==== Sys2Proof/Machine/Step.lean ====
section
/-! DEFINITION. One step of the machine: the engine takes the next command and executes it (`47_commands.md` R150). -/

namespace Sys2Proof.Machine

/-- One step. With no command on the port nothing happens (`60_exceptions.md` R200, `47_commands.md` R150: "no step it
takes without a command", log entry 3). -/
def step (s : State) : Host.Outcome State Fault Refusal :=
  match s.nextCommand? with
  | none => .next s
  | some w => exec (decode s.wMax w) s

/-- `s` with the instruction of a table word where `step` takes its next one (log entry 5). -/
def State.withFetchWord (s : State) (nbits w : Nat) : State := s.placeTableWord nbits w

end Sys2Proof.Machine
end

