-- ==== Sys2Proof/Machine/Assembly.lean ====
section
/-! DEFINITION. The text syntax of a command (`30_encoding.md` R62), printed and read, the commands of a call and the
pseudo-command PACK (R63). -/

namespace Sys2Proof.Machine

/-- The name of an endianness constant (`30_encoding.md` R56, R62). -/
def endiannessText (e : Endianness) : String :=
  match e.unit, e.bit with
  | .bigUnit, .bigBit => "big_unit_big_bit"
  | .littleUnit, .bigBit => "little_unit_big_bit"
  | .bigUnit, .littleBit => "big_unit_little_bit"
  | .littleUnit, .littleBit => "little_unit_little_bit"

/-- A chunk value in hexadecimal (`30_encoding.md` R62). -/
def hexText (v : Nat) : String := "0x" ++ String.ofList (Nat.toDigits 16 v)

/-- The line of text of a command (`30_encoding.md` R62), none for what is no command of the syntax: a reserved
opcode, or a row of format CTRL. -/
def instrText : Instr → Option String
  | .rst => some "RST"
  | .cfg iw ie ow oe =>
    some ("CFG " ++ toString iw.toNat ++ ", " ++ endiannessText ie ++ ", " ++ toString ow.toNat ++ ", " ++
      endiannessText oe)
  | .push arg => some ("PUSH " ++ hexText arg)
  | .endStream => some "END"
  | .reserved47 _ => none
  | .reserved8F _ => none
  | .pushEq _ _ _ => none
  | .pushImp _ _ _ _ => none
  | .pushExp _ _ _ _ => none

/-- The expansion of PACK (`30_encoding.md` R63): CFG, one PUSH for each chunk in order, END. -/
def callCommands (xs : List Nat) (iw : Width) (ie : Endianness) (ow : Width) (oe : Endianness) : List Instr :=
  .cfg iw ie ow oe :: (xs.map Instr.push ++ [.endStream])

/-- The command words of a call, as an assembler emits them (`30_encoding.md` R52, R63). -/
def callWords (wMax : Nat) (xs : List Nat) (iw : Width) (ie : Endianness) (ow : Width) (oe : Endianness) :
    List Nat :=
  (callCommands xs iw ie ow oe).map fun i => (encode wMax i).word

/-! ## Reading a line of text (`30_encoding.md` R62, R63, log entry 15) -/

/-- A line without its comment: "a comment starts with `;`". -/
def withoutComment : List Char → List Char
  | [] => []
  | c :: cs => if c = ';' then [] else c :: withoutComment cs

/-- A word that has been read, if it has any characters. -/
def finishedWord (word : List Char) : List (List Char) := if word = [] then [] else [word]

/-- The words and the marks `,`, `[`, `]` of a line, `word` being the characters of the word being read. -/
def lineTokens (word : List Char) : List Char → List (List Char)
  | [] => finishedWord word
  | c :: cs =>
    if c = ' ' ∨ c = '\t' then finishedWord word ++ lineTokens [] cs
    else if c = ',' ∨ c = '[' ∨ c = ']' then finishedWord word ++ [c] :: lineTokens [] cs
    else lineTokens (word ++ [c]) cs

/-- A digit of base 10 or 16. -/
def digitValue? (base : Nat) (c : Char) : Option Nat :=
  let n := c.toNat
  let v :=
    if 48 ≤ n ∧ n ≤ 57 then n - 48
    else if 97 ≤ n ∧ n ≤ 102 then n - 87
    else if 65 ≤ n ∧ n ≤ 70 then n - 55
    else base
  if v < base then some v else none

/-- A numeral continued by more digits. -/
def numeralFrom? (base value : Nat) : List Char → Option Nat
  | [] => some value
  | c :: cs =>
    match digitValue? base c with
    | some d => numeralFrom? base (value * base + d) cs
    | none => none

/-- A decimal width. It must fit the 32 bits of its field. -/
def readWidth? (word : List Char) : Option Width :=
  match if word = [] then none else numeralFrom? 10 0 word with
  | some v => if v < 2 ^ 32 then some (BitVec.ofNat 32 v) else none
  | none => none

/-- A chunk value: hexadecimal with the prefix `0x`. It must fit the operand of the
instance `W_MAX`. -/
def readChunk? (wMax : Nat) (word : List Char) : Option Nat :=
  match word with
  | '0' :: 'x' :: c :: cs =>
    match numeralFrom? 16 0 (c :: cs) with
    | some v => if v < 2 ^ Config.argBits wMax then some v else none
    | none => none
  | _ => none

/-- "One of the four constants (or their codes 0 to 3)". -/
def readEndianness? (word : List Char) : Option Endianness :=
  if word = "big_unit_big_bit".toList ∨ word = ['0'] then some bigUnitBigBit
  else if word = "little_unit_big_bit".toList ∨ word = ['1'] then some littleUnitBigBit
  else if word = "big_unit_little_bit".toList ∨ word = ['2'] then some bigUnitLittleBit
  else if word = "little_unit_little_bit".toList ∨ word = ['3'] then some littleUnitLittleBit
  else none

/-- The four operands of CFG, which are also the last four of PACK. -/
def readCall? (build : Width → Endianness → Width → Endianness → List Instr) :
    List (List Char) → Option (List Instr)
  | [iw, [','], ie, [','], ow, [','], oe] =>
    match readWidth? iw, readEndianness? ie, readWidth? ow, readEndianness? oe with
    | some iw, some ie, some ow, some oe => some (build iw ie ow oe)
    | _, _, _, _ => none
  | _ => none

/-- The chunks of PACK after its first one, up to the closing bracket, then the rest of its operands. -/
def readMoreChunks? (wMax : Nat) (xs : List Nat) : List (List Char) → Option (List Instr)
  | [']'] :: [','] :: rest => readCall? (callCommands xs) rest
  | [','] :: v :: rest =>
    match readChunk? wMax v with
    | some x => readMoreChunks? wMax (xs ++ [x]) rest
    | none => none
  | _ => none

/-- The commands a line of text stands for: none in a blank line, one in a line of R62, a whole call in a PACK (R63).
No value for a line that is not of the syntax. -/
def readLine? (wMax : Nat) (line : List Char) : Option (List Instr) :=
  match lineTokens [] (withoutComment line) with
  | [] => some []
  | ['R', 'S', 'T'] :: rest => if rest = [] then some [.rst] else none
  | ['E', 'N', 'D'] :: rest => if rest = [] then some [.endStream] else none
  | ['P', 'U', 'S', 'H'] :: rest =>
    match rest with
    | [v] => (readChunk? wMax v).map fun x => [.push x]
    | _ => none
  | ['C', 'F', 'G'] :: rest => readCall? (fun iw ie ow oe => [.cfg iw ie ow oe]) rest
  | ['P', 'A', 'C', 'K'] :: ['['] :: [']'] :: [','] :: rest => readCall? (callCommands []) rest
  | ['P', 'A', 'C', 'K'] :: ['['] :: v :: rest =>
    match readChunk? wMax v with
    | some x => readMoreChunks? wMax [x] rest
    | none => none
  | _ => none

end Sys2Proof.Machine
end

