-- ==== Sys2Proof/Safety.lean ====
section
/-! DEFINITION. The terms the claims use: the invariants of the registers (`10_state.md` R14, R15, R22), when a call is
over and when its output counts (`70_reset_and_hazards.md` R223, `47_commands.md` R161), and the units of a stream in
the order of the reference form (`48_laws.md` R173). -/

namespace Sys2Proof.Machine

/-! ## Invariants -/

/-- A call is open or has ended without error. -/
abbrev State.configured (s : State) : Prop := s.phase = .run ∨ s.phase = .done

/-- The six invariants of `10_state.md` R22, in its order. -/
abbrev State.RegistersOk (s : State) : Prop :=
  (s.phase = .idle → s = s.clearRegisters) ∧
  (s.phase = .err →
    s.cause ≠ .none ∧ s.mode = .none ∧ s.du = false ∧ s.db = false ∧ s.lw = false ∧ s.k = 0 ∧ s.idx = 0 ∧
      s.acc = 0) ∧
  (s.configured →
    s.cause = .none ∧ s.mode ≠ .none ∧ 1 ≤ s.k.toNat ∧
      validate s.wMax s.inWidth.toNat s.outWidth.toNat = .none) ∧
  ((s.phase = .run → s.idx.toNat < s.k.toNat) ∧ (s.mode ≠ .imp → s.idx = 0 ∧ s.acc = 0)) ∧
  (s.phase = .done → s.idx = 0 ∧ s.acc = 0) ∧
  (s.mode = .imp → s.acc < 2 ^ s.outWidth.toNat)

/-- The control registers are those the dispatcher derives from the configuration registers (`10_state.md` R14, R15).
R22 alone is not kept by END, which leaves `ACC` as it is (log entry 7). -/
abbrev State.ControlsOk (s : State) : Prop :=
  s.configured →
    select s.inWidth.toNat s.outWidth.toNat = (s.mode, s.k.toNat) ∧
      s.du = unitOrdersDiffer s.inEnd s.outEnd ∧
      s.db = bitOrdersDiffer s.inEnd s.outEnd ∧
      s.lw = wideIsLittle s.mode s.inEnd s.outEnd

/-- The windows of the accumulator whose chunk has not been pushed yet are zero: what `10_state.md` R17 says of `ACC`
without the history of the pushes. -/
abbrev State.PendingWindowsZero (s : State) : Prop :=
  s.mode = .imp →
    ∀ i < s.k.toNat, s.idx.toNat ≤ i →
      (s.acc >>> placeShift s.lw i s.inWidth.toNat s.outWidth.toNat) &&& mask s.inWidth.toNat = 0

/-- `W_MAX` is a value the parameter can take (`00_scope.md` R6). -/
abbrev State.ParameterOk (s : State) : Prop := Config.isWMax s.wMax = true

/-- The invariant of the machine. -/
abbrev State.Inv (s : State) : Prop := s.RegistersOk ∧ s.ControlsOk ∧ s.PendingWindowsZero ∧ s.ParameterOk

/-! ## Runs and calls -/

/-- `n` steps from `s`, stopping at the first stop. -/
def run (n : Nat) (s : State) : Result := Host.Core.run core n s

/-- A call is over (`70_reset_and_hazards.md` R223): RUN is never final. -/
def State.callOver (s : State) : Bool := s.phase == .done || s.phase == .err

/-- The output received is the result of the call (`70_reset_and_hazards.md` R223, `47_commands.md` R161). -/
def State.resultValid (s : State) : Bool := s.phase == .done

/-- The longest prefix of a stream that holds no chunk out of range and, for the imploder, only whole groups: what has
been emitted when a call fails late (`47_commands.md` R160 item 3, `90_conflicts.md` C9). -/
def completedPrefix (xs : List Nat) (iw ow : Nat) : List Nat :=
  let inRange := xs.takeWhile fun x => decide (x < 2 ^ iw)
  if iw < ow then inRange.take (inRange.length / (ow / iw) * (ow / iw)) else inRange

/-! ## The units of a stream -/

/-- The `w / 8` units of a chunk, most significant first (`48_laws.md` R173). -/
def unitsMsbFirst (w v : Nat) : List Nat :=
  (List.range (w / Config.unitBits)).map fun j => unitOf v (w / Config.unitBits - 1 - j)

/-- The units of a chunk, least significant first. -/
def unitsLsbFirst (w v : Nat) : List Nat := (List.range (w / Config.unitBits)).map (unitOf v)

/-- The units a chunk of an endianness stands for, as the reference form would list them: a `little_unit` chunk is read
from its least significant unit, and the bits of a `little_bit` unit are read the other way round. -/
def referenceUnits (w : Nat) (e : Endianness) (v : Nat) : List Nat :=
  let us := if unitIsLittle e then unitsLsbFirst w v else unitsMsbFirst w v
  if bitIsLittle e then us.map bitrevUnit else us

/-- The units of a stream, chunk after chunk. -/
def streamUnits (w : Nat) (e : Endianness) (xs : List Nat) : List Nat := xs.flatMap (referenceUnits w e)

/-- A valid stream of a configuration (`48_laws.md`, introduction): chunks of the input width, whole groups. -/
def validStream (xs : List Nat) (iw ow : Nat) : Bool :=
  xs.all (fun x => decide (x < 2 ^ iw)) && (decide (ow ≤ iw) || decide (xs.length % (ow / iw) = 0))

end Sys2Proof.Machine
end

