-- ==== Sys2Proof/WellFormed.lean ====
section
/-! DEFINITION. Which instructions are well-formed: a PUSH is, when its operand is a chunk of the input width
(`30_encoding.md` R54). -/

namespace Sys2Proof

/-- The operand fits `ARG_BITS` bits, so that the instruction has a command word (`30_encoding.md` R50). -/
def Instr.encodable (wMax : Nat) : Instr → Bool
  | .rst => true
  | .cfg _ _ _ _ => true
  | .push arg => decide (arg < 2 ^ Config.argBits wMax)
  | .endStream => true
  | .reserved47 _ => true
  | .reserved8F _ => true
  | .pushEq _ _ arg => decide (arg < 2 ^ Config.argBits wMax)
  | .pushImp _ _ _ arg => decide (arg < 2 ^ Config.argBits wMax)
  | .pushExp _ _ _ arg => decide (arg < 2 ^ Config.argBits wMax)

/-- Well-formed for an input width. The spec says it of a PUSH ("a well-formed PUSH has zeros in every bit from
`IN_WIDTH` up", `30_encoding.md` R54) and of a CFG whose widths the dispatcher rejects (R60 c). Of RST, END and the
reserved opcodes it does not say the word: that they are well-formed is the model's choice (log entry 18), and no step
depends on it. -/
def Instr.wellFormedFor (inWidth : Nat) : Instr → Bool
  | .rst => true
  | .cfg _ _ _ _ => true
  | .push arg => decide (arg < 2 ^ inWidth)
  | .endStream => true
  | .reserved47 _ => true
  | .reserved8F _ => true
  | .pushEq _ _ arg => decide (arg < 2 ^ inWidth)
  | .pushImp _ _ _ arg => decide (arg < 2 ^ inWidth)
  | .pushExp _ _ _ arg => decide (arg < 2 ^ inWidth)

/-- Well-formed for some legal configuration: no legal input width is above `W_MAX`, so a chunk of `2 ^ W_MAX` or
more is a chunk of no configuration (`47_commands.md` R153: "`arg` bits 67:64 must be zero" at `W_MAX = 64`). -/
def Instr.wellFormedAt (wMax : Nat) (i : Instr) : Bool := i.wellFormedFor wMax

/-- Well-formed in the default instance. -/
def Instr.wellFormed (i : Instr) : Bool := i.wellFormedAt Config.wMax

end Sys2Proof
end

