-- ==== Sys2Proof/Certificates/Slice0/Obligations.lean ====
section
/-! DEFINITION. The statements for the provers. Each docstring names the rule of `spec/` it formalises. -/

open Sys2Proof Sys2Proof.Machine

/-! ## Encoding -/

/-- Words written out from `30_encoding.md` section 6 and R60, and control words from R58, decode to what they stand
for. That a control word decodes to a row with a chunk is the model's choice (log entry 6). -/
def Obligations.SpecWordsDecode : Prop :=
  decode 64 0x000000000000000000 = .rst ∧
  decode 64 0x110000002000000010 = .cfg 16 littleUnitBigBit 32 bigUnitBigBit ∧
  decode 64 0x1C0000002000000020 = .cfg 32 bigUnitBigBit 32 littleUnitLittleBit ∧
  decode 64 0x200000000000001234 = .push 0x1234 ∧
  decode 64 0x300000000000000000 = .endStream ∧
  decode 64 0x400000000000000000 = .reserved47 0 ∧
  decode 64 0xa00000000000000005 = .reserved8F 2 ∧
  decodeControl 0b01100#5 0x12 = .ok (.pushEq true false 0x12) ∧
  decodeControl 0b10011#5 0x12 = .ok (.pushImp false true true 0x12) ∧
  decodeControl 0b11110#5 0x12 = .ok (.pushExp true true false 0x12)

/-- Decoding the canonical encoding of an instruction gives it back, for all nine rows, every operand that fits the
operand field and every `W_MAX`, and the command word has `CW_BITS` bits (`30_encoding.md` R50, `00_scope.md` R7). The
encoding of a row of format CTRL is the model's choice (log entry 6). -/
def Obligations.DecodeOfEncodeIsIdentity : Prop :=
  ∀ (wMax : Nat) (i : Instr), i.encodable wMax = true →
    decodeEncoding wMax (encode wMax i) = .ok i ∧ (encode wMax i).word < 2 ^ Config.cwBits wMax

/-- The other direction: a command word is the canonical encoding of what it decodes to, up to its ignored bits: the
operand of RST and END (`30_encoding.md` R52, R60), the operand bits of CFG from 68 up, which only a `W_MAX` above 68
has (R53), and the operand of a reserved opcode, which `47_commands.md` R158 ignores. That the encoder writes zeros for
a reserved opcode is the model's choice (log entry 11). -/
def Obligations.EncodeOfDecodeRestoresTheWord : Prop :=
  ∀ (wMax : Nat) (w : Nat), w < 2 ^ Config.cwBits wMax →
    encode wMax (decode wMax w) =
      .command
        (if opField wMax w = 2 then w
          else if opField wMax w = 1 then commandWord wMax 1 (argField wMax w % 2 ^ 68)
          else commandWord wMax (opField wMax w) 0)

/-- The opcode map (`30_encoding.md` R51) with the fields of CFG (R53) and PUSH (R54) at their bit positions, for every
command word of every `W_MAX`. -/
def Obligations.OpcodeMapAndFields : Prop :=
  ∀ (wMax : Nat) (w : Nat), w < 2 ^ Config.cwBits wMax →
    (w / 2 ^ Config.argBits wMax = 0 → decode wMax w = .rst) ∧
    (w / 2 ^ Config.argBits wMax = 1 → ∃ iw ie ow oe, decode wMax w = .cfg iw ie ow oe ∧
      iw.toNat = w % 2 ^ 32 ∧ ow.toNat = w / 2 ^ 32 % 2 ^ 32 ∧
      ie.code.toNat = w / 2 ^ 64 % 4 ∧ oe.code.toNat = w / 2 ^ 66 % 4) ∧
    (w / 2 ^ Config.argBits wMax = 2 → decode wMax w = .push (w % 2 ^ Config.argBits wMax)) ∧
    (w / 2 ^ Config.argBits wMax = 3 → decode wMax w = .endStream) ∧
    (4 ≤ w / 2 ^ Config.argBits wMax → w / 2 ^ Config.argBits wMax < 8 →
      ∃ r, decode wMax w = .reserved47 r ∧ r.toNat = w / 2 ^ Config.argBits wMax % 4) ∧
    (8 ≤ w / 2 ^ Config.argBits wMax →
      ∃ r, decode wMax w = .reserved8F r ∧ r.toNat = w / 2 ^ Config.argBits wMax % 8)

/-- The control words (`30_encoding.md` R58): the three forms select their row with the bits they leave free, `00000`
selects none, and the values that never occur are refused by name. The rows as instructions are the model's choice
(log entry 6). -/
def Obligations.ControlWordsSelectRows : Prop :=
  ∀ arg : Nat, ∀ u b l : Bool,
    decodeControl (controlWordOf 0b01#2 u b false) arg = .ok (.pushEq u b arg) ∧
    decodeControl (controlWordOf 0b01#2 u b true) arg = .error .neverOccurs ∧
    decodeControl (controlWordOf 0b10#2 u b l) arg = .ok (.pushImp u b l arg) ∧
    decodeControl (controlWordOf 0b11#2 u b l) arg = .ok (.pushExp u b l arg) ∧
    decodeControl (controlWordOf 0b00#2 u b l) arg =
      .error (if u || b || l then .neverOccurs else .noAlgorithm)

/-! ## The reference functions -/

/-- `DU` and `DB` of every pair of endiannesses (`40_endianness_descriptor.md` R75). -/
def Obligations.OrdersDifferIsXorOfCodes : Prop :=
  ∀ ie oe : Endianness,
    unitOrdersDiffer ie oe = (ie.code.getLsbD 0 ^^ oe.code.getLsbD 0) ∧
    bitOrdersDiffer ie oe = (ie.code.getLsbD 1 ^^ oe.code.getLsbD 1)

/-- The unit reverser (`41_reversers.md` R80): unit `j` of the result is unit `n - 1 - j` of the chunk, the result is a
chunk of the same width, and the corner cases. -/
def Obligations.UnitReverserPlacesUnits : Prop :=
  ∀ v w : Nat, isChunk v w = true →
    ∃ r, revUnits? v w = some r ∧ r < 2 ^ w ∧
      (∀ j < w / 8, unitOf r j = unitOf v (w / 8 - 1 - j)) ∧
      (w = 8 → r = v) ∧ (v = 0 → r = 0) ∧ (v = 2 ^ w - 1 → r = 2 ^ w - 1)

/-- Bit reversal of one unit (`41_reversers.md` R81): bit `t` goes to place `7 - t`. -/
def Obligations.BitReversalOfOneUnit : Prop :=
  ∀ b : Nat, b < 256 →
    ∃ r, bitrevUnit? b = some r ∧ r < 256 ∧ ∀ t < 8, r.testBit (7 - t) = b.testBit t

/-- The bit reverser (`41_reversers.md` R82): each unit is reversed within itself, units stay in place, and the corner
cases. -/
def Obligations.BitReverserWorksPerUnit : Prop :=
  ∀ v w : Nat, isChunk v w = true →
    ∃ r, revBits? v w = some r ∧ r < 2 ^ w ∧
      (∀ j < w / 8, unitOf r j = bitrevUnit (unitOf v j)) ∧
      (∀ j < w / 8, ∀ t < 8, r.testBit (8 * j + t) = v.testBit (8 * j + (7 - t))) ∧
      (w = 8 → r = bitrevUnit v) ∧ (v = 0 → r = 0) ∧ (v = 2 ^ w - 1 → r = 2 ^ w - 1)

/-- The four laws of the reversers (`41_reversers.md` R83). -/
def Obligations.ReverserLaws : Prop :=
  ∀ w : Nat, isChunkWidth w = true →
    (∀ v < 2 ^ w,
      revUnits (revUnits v w) w = v ∧ revBits (revBits v w) w = v ∧
      revUnits (revBits v w) w = revBits (revUnits v w) w ∧
      ∀ t < w, (revBits (revUnits v w) w).testBit (w - 1 - t) = v.testBit t) ∧
    Set.BijOn (fun v => revUnits v w) {v | v < 2 ^ w} {v | v < 2 ^ w} ∧
    Set.BijOn (fun v => revBits v w) {v | v < 2 ^ w} {v | v < 2 ^ w} ∧
    revUnits 0 w = 0 ∧ revBits 0 w = 0 ∧
    revUnits (2 ^ w - 1) w = 2 ^ w - 1 ∧ revBits (2 ^ w - 1) w = 2 ^ w - 1

/-- Reversal selection (`41_reversers.md` R84): the four entries of the table, and `xform` is its own inverse. -/
def Obligations.XformSelectsAndUndoesItself : Prop :=
  ∀ v w : Nat, isChunk v w = true →
    xform? v w false false = some v ∧
    xform? v w true false = some (revUnits v w) ∧
    xform? v w false true = some (revBits v w) ∧
    xform? v w true true = some (revBits (revUnits v w) w) ∧
    ∀ du db : Bool, xform (xform v w du db) w du db = v ∧ xform v w du db < 2 ^ w ∧
      (w = 8 → xform v w du db = xform v w false db)

/-- The arithmetic of the shift (`42_shift_resolver.md` R94), for the small and the big width of a legal pair. -/
def Obligations.ShiftArithmetic : Prop :=
  ∀ small big : Nat, isRatio small big = true →
    (∀ lw : Bool, ∀ i < big / small,
      small + i * small ≤ big ∧ placeShift lw i small big ≤ big - small ∧
      placeShift lw i small big % small = 0 ∧ placeShift lw i small big % 8 = 0) ∧
    (∀ lw : Bool, ∀ b < big, ∃! i, i < big / small ∧
      placeShift lw i small big ≤ b ∧ b < placeShift lw i small big + small) ∧
    (∀ i < big / small, placeShift false i small big = placeShift true (big / small - 1 - i) small big) ∧
    (big / small = 1 → ∀ lw : Bool, placeShift lw 0 small big = 0)

/-- The shifts of the imploder and of the exploder (`42_shift_resolver.md` R91, R92), for a sub-chunk index of a group
of a legal pair of widths: the unit order of the wide side decides, and no bit order has a part in it (R95). -/
def Obligations.ShiftFollowsWideUnitOrder : Prop :=
  ∀ (i iw ow : Nat) (b : BitOrder),
    (isRatio iw ow = true → i < ow / iw →
      shiftImp? i iw ow ⟨.littleUnit, b⟩ = some (i * iw) ∧
      shiftImp? i iw ow ⟨.bigUnit, b⟩ = some (ow - (iw + i * iw))) ∧
    (isRatio ow iw = true → i < iw / ow →
      shiftExp? i iw ow ⟨.littleUnit, b⟩ = some (i * ow) ∧
      shiftExp? i iw ow ⟨.bigUnit, b⟩ = some (iw - (ow + i * ow)))

/-- The OR of the imploder never merges two one-bits (`43_imploder.md` R103): it is a sum. -/
def Obligations.ImplodeGroupIsSum : Prop :=
  ∀ (g : List Nat) (iw ow : Nat) (ie oe : Endianness),
    isRatio iw ow = true → g.length = ow / iw → (∀ x ∈ g, x < 2 ^ iw) →
    ∃ y, implodeGroup? g iw ie ow oe = some y ∧ y < 2 ^ ow ∧
      y = (g.zipIdx.map fun p => convertEqual p.1 iw ie oe * 2 ^ shiftImp p.2 iw ow oe).sum

/-- The closed form of the imploder (`43_imploder.md` R105): the transformed chunks concatenated, the first one most
significant when the output is `big_unit` and least significant when it is `little_unit`. -/
def Obligations.ImplodeGroupConcatenates : Prop :=
  ∀ (g : List Nat) (iw ow : Nat) (ie oe : Endianness),
    isRatio iw ow = true → g.length = ow / iw → (∀ x ∈ g, x < 2 ^ iw) →
    let ts := g.map fun x => convertEqual x iw ie oe
    implodeGroup g iw ie ow oe =
      (if oe.unit = .bigUnit then ts else ts.reverse).foldl (fun a t => a * 2 ^ iw + t) 0

/-- The closed form of the exploder (`44_exploder.md` R113): the fields of the chunk, most significant first, are the
transformed output chunks, in order when the input is `big_unit` and in reverse when it is `little_unit`. -/
def Obligations.ExplodeChunkSplits : Prop :=
  ∀ (ws : List Nat) (iw ow : Nat) (ie oe : Endianness),
    isRatio ow iw = true → ws.length = iw / ow → (∀ x ∈ ws, x < 2 ^ ow) →
    explodeChunk? (ws.foldl (fun a t => a * 2 ^ ow + t) 0) iw ie ow oe =
      some ((if ie.unit = .bigUnit then ws else ws.reverse).map fun x => convertEqual x ow ie oe)

/-- The exploder and the imploder undo each other (`44_exploder.md` R114). -/
def Obligations.ImplodeExplodeInverse : Prop :=
  ∀ (small big : Nat) (en ew : Endianness), isRatio small big = true →
    (∀ g : List Nat, g.length = big / small → (∀ x ∈ g, x < 2 ^ small) →
      explodeChunk (implodeGroup g small en big ew) big ew small en = g) ∧
    (∀ x < 2 ^ big, implodeGroup (explodeChunk x big ew small en) small en big ew = x)

/-- At equal widths the imploder's and the exploder's formulas give the equal-size converter's result
(`45_equal_size.md` R123). -/
def Obligations.EqualWidthFormulasAgree : Prop :=
  ∀ (x w : Nat) (ie oe : Endianness), isChunk x w = true →
    implodeGroup? [x] w ie w oe = some (convertEqual x w ie oe) ∧
    explodeChunk? x w ie w oe = some [convertEqual x w ie oe]

/-- Validation (`46_dispatcher.md` R131): which widths each outcome stands for, in the order of the tests. -/
def Obligations.ValidateOutcomes : Prop :=
  ∀ wMax iw ow : Nat,
    (validate wMax iw ow = .cfgZeroWidth ↔ iw = 0 ∨ ow = 0) ∧
    (validate wMax iw ow = .cfgWidthNotUnitMultiple ↔ 0 < iw ∧ 0 < ow ∧ ¬(8 ∣ iw ∧ 8 ∣ ow)) ∧
    (validate wMax iw ow = .cfgWidthTooLarge ↔
      0 < iw ∧ 0 < ow ∧ 8 ∣ iw ∧ 8 ∣ ow ∧ (wMax < iw ∨ wMax < ow)) ∧
    (validate wMax iw ow = .cfgNotDivisible ↔
      0 < iw ∧ 0 < ow ∧ 8 ∣ iw ∧ 8 ∣ ow ∧ iw ≤ wMax ∧ ow ≤ wMax ∧ ¬ow ∣ iw ∧ ¬iw ∣ ow) ∧
    (validate wMax iw ow = .none ↔
      0 < iw ∧ 0 < ow ∧ 8 ∣ iw ∧ 8 ∣ ow ∧ iw ≤ wMax ∧ ow ≤ wMax ∧ (ow ∣ iw ∨ iw ∣ ow))

/-- Selection on validated widths (`46_dispatcher.md` R132): the three cases, and the bounds of the group size. -/
def Obligations.SelectOutcomes : Prop :=
  ∀ wMax iw ow : Nat, validate wMax iw ow = .none →
    ∃ m k, select? wMax iw ow = some (m, k) ∧ 1 ≤ k ∧ k ≤ wMax / 8 ∧
      ((iw = ow ∧ m = .eq ∧ k = 1) ∨
        (iw < ow ∧ m = .imp ∧ k * iw = ow ∧ 2 ≤ k) ∨
        (ow < iw ∧ m = .exp ∧ k * ow = iw ∧ 2 ≤ k))

/-! ## The laws of `pack` (`48_laws.md`) -/

/-- When `pack` answers a stream and what error it answers otherwise, in the order of the tests (`46_dispatcher.md`
R134, `60_exceptions.md` R197 a): every valid stream of a legal configuration, the empty one too, has an output, whose
chunks are below `2 ^ OW` and which is valid for the way back. -/
def Obligations.PackOutcomes : Prop :=
  ∀ (wMax : Nat) (xs : List Nat) (iw ow : Nat) (ie oe : Endianness),
    (validate wMax iw ow ≠ .none → pack wMax xs iw ie ow oe = .err (validate wMax iw ow)) ∧
    (validate wMax iw ow = .none → (∃ x ∈ xs, 2 ^ iw ≤ x) → pack wMax xs iw ie ow oe = .err .chunkRange) ∧
    (validate wMax iw ow = .none → (∀ x ∈ xs, x < 2 ^ iw) → iw < ow → xs.length % (ow / iw) ≠ 0 →
      pack wMax xs iw ie ow oe = .err .incompleteGroup) ∧
    (validate wMax iw ow = .none → validStream xs iw ow = true →
      ∃ ys, pack wMax xs iw ie ow oe = .ok ys ∧ validStream ys ow iw = true)

/-- Width conservation (`48_laws.md` R170). -/
def Obligations.PackConservesWidth : Prop :=
  ∀ (wMax : Nat) (xs ys : List Nat) (iw ow : Nat) (ie oe : Endianness),
    pack wMax xs iw ie ow oe = .ok ys → xs.length * iw = ys.length * ow

/-- Identity (`48_laws.md` R171). -/
def Obligations.PackIdentity : Prop :=
  ∀ (wMax : Nat) (xs : List Nat) (w : Nat) (e : Endianness),
    validate wMax w w = .none → (∀ x ∈ xs, x < 2 ^ w) → pack wMax xs w e w e = .ok xs

/-- Round trip (`48_laws.md` R172). -/
def Obligations.PackRoundTrip : Prop :=
  ∀ (wMax : Nat) (xs ys : List Nat) (w1 w2 : Nat) (e1 e2 : Endianness),
    pack wMax xs w1 e1 w2 e2 = .ok ys → pack wMax ys w2 e2 w1 e1 = .ok xs

/-- Canonical-form invariance (`48_laws.md` R173): under the reference form on both sides the units of the stream, most
significant first, are the same. -/
def Obligations.PackReferenceFormOnlyRegroups : Prop :=
  ∀ (wMax : Nat) (xs ys : List Nat) (w1 w2 : Nat),
    pack wMax xs w1 bigUnitBigBit w2 bigUnitBigBit = .ok ys →
    ys.flatMap (unitsMsbFirst w2) = xs.flatMap (unitsMsbFirst w1)

/-- Same-endianness regrouping (`48_laws.md` R174): with one endianness on both sides no unit is changed, and the units
of the stream read in the order of its unit order are the same. -/
def Obligations.PackSameEndiannessOnlyRegroups : Prop :=
  ∀ (wMax : Nat) (xs ys : List Nat) (w1 w2 : Nat) (e : Endianness),
    pack wMax xs w1 e w2 e = .ok ys →
    ys.flatMap (if e.unit = .littleUnit then unitsLsbFirst w2 else unitsMsbFirst w2) =
      xs.flatMap (if e.unit = .littleUnit then unitsLsbFirst w1 else unitsMsbFirst w1)

/-- The idea behind the laws: whatever the endiannesses, `pack` keeps the units a stream stands for in the reference
form (`20_memory.md` R35, `48_laws.md` R173, R174). -/
def Obligations.PackKeepsReferenceUnits : Prop :=
  ∀ (wMax : Nat) (xs ys : List Nat) (w1 w2 : Nat) (e1 e2 : Endianness),
    pack wMax xs w1 e1 w2 e2 = .ok ys → streamUnits w2 e2 ys = streamUnits w1 e1 xs

/-- `pack` permutes bits (`48_laws.md` R175): one map from output bit positions to input bit positions, a bijection that
depends on the configuration and on the length of the stream and never on the data. -/
def Obligations.PackPermutesBits : Prop :=
  ∀ (wMax w1 w2 n m : Nat) (e1 e2 : Endianness), validate wMax w1 w2 = .none → n * w1 = m * w2 →
    ∃ σ : Nat × Nat → Nat × Nat,
      Set.BijOn σ {p | p.1 < m ∧ p.2 < w2} {p | p.1 < n ∧ p.2 < w1} ∧
      ∀ xs ys : List Nat, xs.length = n → pack wMax xs w1 e1 w2 e2 = .ok ys →
        ys.length = m ∧
        ∀ p, p.1 < m → p.2 < w2 →
          (ys.getD p.1 0).testBit p.2 = (xs.getD (σ p).1 0).testBit (σ p).2

/-- Locality (`48_laws.md` R176): the output of a stream is the outputs of its parts, when each part is a whole number
of groups. -/
def Obligations.PackIsLocal : Prop :=
  ∀ (wMax w1 w2 : Nat) (e1 e2 : Endianness) (parts : List (List Nat)) (outs : List (List Nat)),
    validate wMax w1 w2 = .none →
    List.Forall₂ (fun p o => pack wMax p w1 e1 w2 e2 = .ok o) parts outs →
    pack wMax parts.flatten w1 e1 w2 e2 = .ok outs.flatten

/-- Composition (`48_laws.md` R178), which the spec marks as its own inference, checked by experiment only. -/
def Obligations.PackComposes : Prop :=
  ∀ (wMax : Nat) (xs ys zs : List Nat) (w1 w2 w3 : Nat) (e1 e2 e3 : Endianness),
    validate wMax w1 w3 = .none → validStream xs w1 w3 = true →
    pack wMax xs w1 e1 w2 e2 = .ok ys → pack wMax ys w2 e2 w3 e3 = .ok zs →
    pack wMax xs w1 e1 w3 e3 = .ok zs

/-! ## The machine: steps and commands -/

/-- A step runs the decoded instruction (`47_commands.md` R150). The meaning itself takes the command from the port, so
nothing is added around it. The port as a list in the state is the model's choice (log entry 2). -/
def Obligations.StepRunsTheDecodedCommand : Prop :=
  ∀ (s : State) (w : Nat) (rest : List Nat),
    s.commandPort = w :: rest → step s = exec (decode s.wMax w) s ∧ s.takeCommand.commandPort = rest

/-- With no command nothing happens (`60_exceptions.md` R200, log entry 3: that a step without a command is a next state
that changes nothing is the model's reading). -/
def Obligations.NothingHappensWithoutACommand : Prop :=
  ∀ s : State, s.commandPort = [] → step s = .next s

/-- RST (`47_commands.md` R151): from any state every register takes its reset value, and nothing is emitted. That the
ports are no registers is the model's reading (log entry 8). -/
def Obligations.RstClearsEveryRegister : Prop :=
  ∀ s : State,
    exec .rst s = .next
      { wMax := s.wMax, phase := .idle, cause := .none,
        inWidth := 0, outWidth := 0, inEnd := bigUnitBigBit, outEnd := bigUnitBigBit,
        mode := .none, du := false, db := false, lw := false, k := 0, idx := 0, acc := 0,
        commandPort := s.commandPort.tail, outputPort := s.outputPort }

/-- CFG with legal widths (`47_commands.md` R152): from any state, every register from the operand alone, phase RUN,
nothing emitted. -/
def Obligations.CfgAcceptedStartsACall : Prop :=
  ∀ (s : State) (iw ow : Width) (ie oe : Endianness), validate s.wMax iw.toNat ow.toNat = .none →
    ∃ (m : Mode) (k : BitVec 32),
      exec (.cfg iw ie ow oe) s = .next
        { wMax := s.wMax, phase := .run, cause := .none, inWidth := iw, outWidth := ow, inEnd := ie, outEnd := oe,
          mode := m, k := k,
          du := decide (ie.unit ≠ oe.unit), db := decide (ie.bit ≠ oe.bit),
          lw := decide ((m = .imp ∧ oe.unit = .littleUnit) ∨ (m = .exp ∧ ie.unit = .littleUnit)),
          idx := 0, acc := 0, commandPort := s.commandPort.tail, outputPort := s.outputPort } ∧
      ((iw.toNat = ow.toNat ∧ m = .eq ∧ k = 1) ∨
        (iw.toNat < ow.toNat ∧ m = .imp ∧ k.toNat * iw.toNat = ow.toNat) ∨
        (ow.toNat < iw.toNat ∧ m = .exp ∧ k.toNat * ow.toNat = iw.toNat))

/-- CFG with widths the dispatcher rejects (`47_commands.md` R152, `60_exceptions.md` R192): phase ERR with the cause of
`validate`, one of the class ConfigurationError, the four arguments kept, everything else cleared, nothing
emitted. -/
def Obligations.CfgRejectedEntersErr : Prop :=
  ∀ (s : State) (iw ow : Width) (ie oe : Endianness), validate s.wMax iw.toNat ow.toNat ≠ .none →
    (validate s.wMax iw.toNat ow.toNat).isConfigurationError = true ∧
    exec (.cfg iw ie ow oe) s = .next
      { wMax := s.wMax, phase := .err, cause := validate s.wMax iw.toNat ow.toNat,
        inWidth := iw, outWidth := ow, inEnd := ie, outEnd := oe,
        mode := .none, du := false, db := false, lw := false, k := 0, idx := 0, acc := 0,
        commandPort := s.commandPort.tail, outputPort := s.outputPort }

/-- Nothing persists across calls (`10_state.md` R23, `20_memory.md` R41): in one instance the registers after a CFG
depend on its operand alone. -/
def Obligations.CfgForgetsThePast : Prop :=
  ∀ (s s' : State) (iw ow : Width) (ie oe : Endianness),
    s'.wMax = s.wMax → s'.commandPort = s.commandPort → s'.outputPort = s.outputPort →
    exec (.cfg iw ie ow oe) s' = exec (.cfg iw ie ow oe) s

/-- Entering the error phase (`60_exceptions.md` R196): what is written, what is kept, nothing emitted. -/
def Obligations.RaiseWritesAndKeeps : Prop :=
  ∀ (s : State) (c : Cause),
    s.raise c =
      { wMax := s.wMax, phase := .err, cause := c,
        mode := .none, du := false, db := false, lw := false, k := 0, idx := 0, acc := 0,
        inWidth := s.inWidth, outWidth := s.outWidth, inEnd := s.inEnd, outEnd := s.outEnd,
        commandPort := s.commandPort, outputPort := s.outputPort }

/-- Where a PUSH, the command or a row of format CTRL, does not reach its data path (`47_commands.md` R153,
`60_exceptions.md` R194, R195, R197 c): phase ERR changes nothing, IDLE and DONE raise PROTOCOL, and in RUN an operand
of `2 ^ IN_WIDTH` or more raises CHUNK_RANGE. That the rows make these tests too is the model's choice (log entry 6). -/
def Obligations.PushTurnedAway : Prop :=
  ∀ (s : State) (i : Instr) (arg : Nat),
    (i = .push arg ∨ (∃ du db, i = .pushEq du db arg) ∨ (∃ du db lw, i = .pushImp du db lw arg) ∨
      (∃ du db lw, i = .pushExp du db lw arg)) →
    (s.phase = .err → exec i s = .next s.takeCommand) ∧
    (s.phase = .idle ∨ s.phase = .done → exec i s = .next (s.takeCommand.raise .protocol)) ∧
    (s.phase = .run → 2 ^ s.inWidth.toNat ≤ arg → exec i s = .next (s.takeCommand.raise .chunkRange))

/-- PUSH in mode EQ (`47_commands.md` R154): one chunk is emitted, no register is written. The invariant
is that of log entry 7, the row as an instruction that of log entry 6. -/
def Obligations.PushEqEmitsOneChunk : Prop :=
  ∀ (s : State) (arg : Nat), s.Inv → s.phase = .run → s.mode = .eq → arg < 2 ^ s.inWidth.toNat →
    ∃ c : Nat,
      c = xform arg s.inWidth.toNat s.du s.db ∧
      c = convertEqual arg s.inWidth.toNat s.inEnd s.outEnd ∧
      exec (.push arg) s = .next { s.takeCommand with outputPort := s.outputPort ++ [c] } ∧
      exec (.pushEq s.du s.db arg) s = .next { s.takeCommand with outputPort := s.outputPort ++ [c] }

/-- PUSH in mode IMP (`47_commands.md` R155): the transformed chunk is placed in the accumulator. The last chunk of a
group emits the accumulator and clears it, any other advances `IDX`. No other register is written. The invariant is
that of log entry 7, the row as an instruction that of log entry 6. -/
def Obligations.PushImpAccumulates : Prop :=
  ∀ (s : State) (arg : Nat), s.Inv → s.phase = .run → s.mode = .imp → arg < 2 ^ s.inWidth.toNat →
    ∃ a : Nat,
      a = s.acc |||
        (xform arg s.inWidth.toNat s.du s.db <<<
          (if s.lw then s.idx.toNat * s.inWidth.toNat
            else s.outWidth.toNat - (s.inWidth.toNat + s.idx.toNat * s.inWidth.toNat))) ∧
      a < 2 ^ s.outWidth.toNat ∧
      ∀ i : Instr, i = .push arg ∨ i = .pushImp s.du s.db s.lw arg →
        (s.idx.toNat + 1 = s.k.toNat →
          exec i s = .next { s.takeCommand with acc := 0, idx := 0, outputPort := s.outputPort ++ [a] }) ∧
        (s.idx.toNat + 1 ≠ s.k.toNat →
          exec i s = .next { s.takeCommand with acc := a, idx := s.idx + 1 } ∧
          (s.idx + 1).toNat = s.idx.toNat + 1)

/-- PUSH in mode EXP (`47_commands.md` R156): `K` chunks are emitted in increasing index, no register is
written. The invariant is that of log entry 7, the row as an instruction that of log entry 6. -/
def Obligations.PushExpEmitsKChunks : Prop :=
  ∀ (s : State) (arg : Nat), s.Inv → s.phase = .run → s.mode = .exp → arg < 2 ^ s.inWidth.toNat →
    ∃ burst : List Nat,
      burst.length = s.k.toNat ∧
      burst =
        ((List.range s.k.toNat).map fun i =>
          xform ((arg >>> (if s.lw then i * s.outWidth.toNat
              else s.inWidth.toNat - (s.outWidth.toNat + i * s.outWidth.toNat))) &&&
            mask s.outWidth.toNat) s.outWidth.toNat s.du s.db) ∧
      burst =
        explodeChunk arg s.inWidth.toNat s.inEnd s.outWidth.toNat s.outEnd ∧
      ∀ i : Instr, i = .push arg ∨ i = .pushExp s.du s.db s.lw arg →
        exec i s = .next { s.takeCommand with outputPort := s.outputPort ++ burst }

/-- The control word selects what a PUSH does (`30_encoding.md` R58): under the control word of a row, the command PUSH
and the row have one meaning. The rows as instructions are the model's choice (log entry 6). -/
def Obligations.ControlWordSelectsThePush : Prop :=
  ∀ (s : State) (arg : Nat) (i : Instr),
    decodeControl s.controlWord arg = .ok i → exec (.push arg) s = exec i s

/-- A PUSH follows its registers (`47_commands.md` R153 to R156), also where they satisfy `10_state.md` R22 and break
R14 or R15: in phase RUN with a chunk in range it does what the rule of its mode says, the chunk on the port and the
accumulator in the `OUT_WIDTH` bits they have (log entry 16). Where a shift goes below zero the rules give it no value,
and it is some number (log entry 19). -/
def Obligations.PushFollowsItsRegisters : Prop :=
  ∀ (s : State) (arg : Nat), s.RegistersOk → s.phase = .run → arg < 2 ^ s.inWidth.toNat →
    (s.mode = .eq →
      exec (.push arg) s = .next
        { s.takeCommand with
          outputPort := s.outputPort ++ [xform arg s.inWidth.toNat s.du s.db % 2 ^ s.outWidth.toNat] }) ∧
    (s.mode = .imp → ∃ shift a : Nat,
      (s.lw = true → shift = s.idx.toNat * s.inWidth.toNat) ∧
      (s.lw = false → s.inWidth.toNat + s.idx.toNat * s.inWidth.toNat ≤ s.outWidth.toNat →
        shift = s.outWidth.toNat - (s.inWidth.toNat + s.idx.toNat * s.inWidth.toNat)) ∧
      a = (s.acc ||| (xform arg s.inWidth.toNat s.du s.db <<< shift)) % 2 ^ s.outWidth.toNat ∧
      exec (.push arg) s = .next
        (if s.idx.toNat + 1 = s.k.toNat then
          { s.takeCommand with acc := 0, idx := 0, outputPort := s.outputPort ++ [a] }
        else { s.takeCommand with acc := a, idx := s.idx + 1 })) ∧
    (s.mode = .exp → ∃ shift : Nat → Nat,
      (s.lw = true → ∀ i, shift i = i * s.outWidth.toNat) ∧
      (s.lw = false → ∀ i, s.outWidth.toNat + i * s.outWidth.toNat ≤ s.inWidth.toNat →
        shift i = s.inWidth.toNat - (s.outWidth.toNat + i * s.outWidth.toNat)) ∧
      exec (.push arg) s = .next
        { s.takeCommand with
          outputPort := s.outputPort ++ (List.range s.k.toNat).map fun i =>
            xform ((arg >>> shift i) &&& mask s.outWidth.toNat) s.outWidth.toNat s.du s.db })

/-- Where a row of format CTRL stops, in phase RUN with a chunk in range: under another control word than its own, in
states of the invariant too. The stop is the model's choice (log entry 6). A PUSH stops nowhere. -/
def Obligations.ControlRowStopsUnderAnotherControlWord : Prop :=
  ∀ (s : State) (arg : Nat) (du db lw : Bool), s.phase = .run → arg < 2 ^ s.inWidth.toNat →
    (s.controlWord ≠ controlWordOf 1 du db false → exec (.pushEq du db arg) s = .fault .controlMismatch) ∧
    (s.controlWord ≠ controlWordOf 2 du db lw → exec (.pushImp du db lw arg) s = .fault .controlMismatch) ∧
    (s.controlWord ≠ controlWordOf 3 du db lw → exec (.pushExp du db lw arg) s = .fault .controlMismatch)

/-- An instruction placed for the next step is run by it (log entry 5): a command as it stands, a row of format CTRL as
the PUSH it is, under a configuration with its control word. -/
def Obligations.PlacedInstructionRuns : Prop :=
  ∀ (s : State) (i : Instr), i.encodable s.wMax = true → step (s.placeInstr i) = exec i (s.placeInstr i)

/-- END (`47_commands.md` R157): phase ERR changes nothing, IDLE and DONE raise PROTOCOL, in RUN a partial group raises
INCOMPLETE_GROUP and anything else closes the call. Nothing is emitted. -/
def Obligations.EndClosesTheCall : Prop :=
  ∀ s : State,
    (s.phase = .err → exec .endStream s = .next s.takeCommand) ∧
    (s.phase = .idle ∨ s.phase = .done → exec .endStream s = .next (s.takeCommand.raise .protocol)) ∧
    (s.phase = .run → s.mode = .imp → s.idx ≠ 0 →
      exec .endStream s = .next (s.takeCommand.raise .incompleteGroup)) ∧
    (s.phase = .run → s.mode ≠ .imp ∨ s.idx = 0 →
      exec .endStream s = .next { s.takeCommand with phase := .done })

/-- Reserved opcodes (`47_commands.md` R158): ILLEGAL_CMD in every phase but ERR, where nothing changes. -/
def Obligations.ReservedOpcodesRaiseIllegalCmd : Prop :=
  ∀ (s : State) (r : BitVec 2) (q : BitVec 3),
    (s.phase ≠ .err →
      exec (.reserved47 r) s = .next (s.takeCommand.raise .illegalCmd) ∧
      exec (.reserved8F q) s = .next (s.takeCommand.raise .illegalCmd)) ∧
    (s.phase = .err →
      exec (.reserved47 r) s = .next s.takeCommand ∧ exec (.reserved8F q) s = .next s.takeCommand)

/-- The phases (`10_state.md` R11): the codes, and the phase and cause after each command in each phase. -/
def Obligations.PhaseTransitions : Prop :=
  (Phase.code .idle = 0 ∧ Phase.code .run = 1 ∧ Phase.code .done = 2 ∧ Phase.code .err = 3) ∧
  ∀ (s t : State) (w : Nat), exec (decode s.wMax w) s = .next t →
    match decode s.wMax w with
    | .rst => t.phase = .idle ∧ t.cause = .none
    | .cfg iw _ ow _ =>
      t.cause = validate s.wMax iw.toNat ow.toNat ∧
      t.phase = if validate s.wMax iw.toNat ow.toNat = .none then .run else .err
    | .push arg =>
      (s.phase = .err → t.phase = .err ∧ t.cause = s.cause) ∧
      (s.phase = .idle ∨ s.phase = .done → t.phase = .err ∧ t.cause = .protocol) ∧
      (s.phase = .run → arg < 2 ^ s.inWidth.toNat → t.phase = .run ∧ t.cause = s.cause) ∧
      (s.phase = .run → 2 ^ s.inWidth.toNat ≤ arg → t.phase = .err ∧ t.cause = .chunkRange)
    | .endStream =>
      (s.phase = .err → t.phase = .err ∧ t.cause = s.cause) ∧
      (s.phase = .idle ∨ s.phase = .done → t.phase = .err ∧ t.cause = .protocol) ∧
      (s.phase = .run →
        (t.phase = .done ∧ t.cause = s.cause) ∨ (t.phase = .err ∧ t.cause = .incompleteGroup))
    | .reserved47 _ | .reserved8F _ =>
      t.phase = .err ∧ t.cause = if s.phase = .err then s.cause else .illegalCmd
    | .pushEq _ _ _ | .pushImp _ _ _ _ | .pushExp _ _ _ _ => False

/-- Phase ERR is left by CFG and RST only (`60_exceptions.md` R201, `47_commands.md` R159): every other command, and
every row of format CTRL, is taken, emits nothing and changes no register. That a row makes the test of phase ERR before
that of its control word is the model's choice (log entry 6). -/
def Obligations.ErrPhaseIsSticky : Prop :=
  ∀ (s : State) (i : Instr), s.phase = .err → i ≠ .rst → (∀ iw ie ow oe, i ≠ .cfg iw ie ow oe) →
    exec i s = .next s.takeCommand

/-- The configuration registers are written by CFG and RST only (`10_state.md` R13). -/
def Obligations.ConfigurationIsConstantInACall : Prop :=
  ∀ (s t : State) (i : Instr), exec i s = .next t → i ≠ .rst → (∀ iw ie ow oe, i ≠ .cfg iw ie ow oe) →
    t.inWidth = s.inWidth ∧ t.outWidth = s.outWidth ∧ t.inEnd = s.inEnd ∧ t.outEnd = s.outEnd

/-- The output stream (`20_memory.md` R33, `47_commands.md` R150, R161): from every state, every command appends a burst
of 0, 1 or `K` chunks and takes nothing back, only a PUSH emits, every chunk is below `2 ^ OUT_WIDTH` and below
`2 ^ W_MAX`, and exactly one command is taken from the port. The ports as lists are the model's choice (log entries 2
and 4), and so is which bits of a chunk the port keeps where the registers break R14 or R15 (log entry 16). -/
def Obligations.BurstsAreAppended : Prop :=
  ∀ (s t : State) (i : Instr), exec i s = .next t →
    t.commandPort = s.commandPort.tail ∧
    ∃ burst : List Nat, t.outputPort = s.outputPort ++ burst ∧
      (burst.length = 0 ∨ burst.length = 1 ∨ burst.length = s.k.toNat) ∧
      (∀ c ∈ burst, c < 2 ^ s.outWidth.toNat ∧ c < 2 ^ s.wMax) ∧
      ((∀ arg, i ≠ .push arg) → (∀ u b arg, i ≠ .pushEq u b arg) → (∀ u b l arg, i ≠ .pushImp u b l arg) →
        (∀ u b l arg, i ≠ .pushExp u b l arg) → burst = [])

/-- The status word (`30_encoding.md` R59): each field at its bits, and the codes of `PHASE`, `MODE` and `CAUSE`
(`60_exceptions.md` R191). -/
def Obligations.StatusWordFields : Prop :=
  [Phase.idle, .run, .done, .err].map Phase.code = [0, 1, 2, 3] ∧
  [Mode.none, .eq, .imp, .exp].map Mode.code = [0, 1, 2, 3] ∧
  [Cause.none, .cfgZeroWidth, .cfgNotDivisible, .cfgWidthNotUnitMultiple, .cfgWidthTooLarge, .incompleteGroup,
    .chunkRange, .protocol, .illegalCmd].map Cause.code = [0, 1, 2, 3, 4, 5, 6, 7, 8] ∧
  ∀ s : State,
    s.statusWord.extractLsb' 0 2 = s.phase.code ∧ s.statusWord.extractLsb' 2 4 = s.cause.code ∧
    s.statusWord.extractLsb' 6 2 = s.mode.code ∧ s.statusWord.getLsbD 8 = s.du ∧
    s.statusWord.getLsbD 9 = s.db ∧ s.statusWord.getLsbD 10 = s.lw ∧
    s.statusWord.extractLsb' 11 5 = 0 ∧ s.statusWord.extractLsb' 16 32 = s.k

/-- Values that never occur (`93_implementation_defined.md` P9, `30_encoding.md` R58, `10_state.md` R14, R18): cause
codes above 8, and the control words `00xxx` other than `00000` and `01xx1`. The cause is 0 exactly outside phase ERR.
That the type of the cause has no reserved value is log entry 9. -/
def Obligations.ReservedValuesNeverOccur : Prop :=
  ∀ s : State, s.Inv →
    s.cause.code ≤ 8 ∧ (s.cause = .none ↔ s.phase ≠ .err) ∧
    (s.controlWord = 0 ∨ ∀ arg, ∃ i, decodeControl s.controlWord arg = .ok i)

/-! ## Invariants and runs -/

/-- `W_MAX` is a parameter (`00_scope.md` R6): no instruction and no step writes it. That it stands in the state is the
model's choice (log entry 1). -/
def Obligations.ParameterNeverChanges : Prop :=
  ∀ s t : State, (step s = .next t → t.wMax = s.wMax) ∧ ∀ i : Instr, exec i s = .next t → t.wMax = s.wMax

/-- The registers fit the sizes of the instance (`10_state.md` R10, R17, `00_scope.md` R6, R7): `ACC` has `W_MAX` bits,
`K` is at most `K_MAX`, and the widths of an accepted configuration are at most `W_MAX`. -/
def Obligations.RegistersFitTheInstance : Prop :=
  ∀ s : State, s.Inv →
    s.acc < 2 ^ s.wMax ∧ s.k.toNat ≤ Config.kMax s.wMax ∧
    (s.configured → s.inWidth.toNat ≤ s.wMax ∧ s.outWidth.toNat ≤ s.wMax)

/-- The machine after reset satisfies the invariant, in every instance (`10_state.md` R22, R24). That `State.reset` is
the default instance is log entry 1. -/
def Obligations.ResetSatisfiesInvariant : Prop :=
  State.reset = State.resetAt 64 ∧
  ∀ wMax : Nat, Config.isWMax wMax = true →
    (State.resetAt wMax).Inv ∧ (State.resetAt wMax).statusWord = 0 ∧ (State.resetAt wMax).outputPort = []

/-- Every step keeps the invariant: the six clauses of `10_state.md` R22, the controls of R14 and R15, the pending
windows of the accumulator (R17), and `W_MAX` a value it can take. So does every instruction wherever it is executed,
the rows of format CTRL too. R22 alone is not kept from every state (log entry 7). -/
def Obligations.StepKeepsInvariant : Prop :=
  ∀ s : State, s.Inv →
    (∀ t, step s = .next t → t.Inv) ∧ ∀ (i : Instr) (t : State), exec i s = .next t → t.Inv

/-- The machine is total (`47_commands.md` R150): from every state, no command is refused and no state is stuck, and the
next state takes the command and has a burst of 0, 1 or `K` chunks of `OUT_WIDTH` bits on the output port. The spec says
it of the states of `10_state.md` R22. That a step without a command is a next state is log entry 3. -/
def Obligations.StepAlwaysAnswersNext : Prop :=
  ∀ s : State,
    (∃ t, step s = .next t) ∧
    ∀ w : Nat, ∃ (t : State) (burst : List Nat),
      exec (decode s.wMax w) s = .next t ∧ t.commandPort = s.commandPort.tail ∧
      t.outputPort = s.outputPort ++ burst ∧
      (burst.length = 0 ∨ burst.length = 1 ∨ burst.length = s.k.toNat) ∧ ∀ c ∈ burst, c < 2 ^ s.outWidth.toNat

/-- In the middle of a call (`47_commands.md` R163, `10_state.md` R16, R17): after an accepted CFG and `n` chunks in
range the phase is RUN, the number of emitted chunks is the one of the mode, `IDX` is `n mod K`, and the accumulator
holds the chunks of the partial group, each at its place. -/
def Obligations.CountsInTheMiddleOfACall : Prop :=
  ∀ (s : State) (xs : List Nat) (iw ow : Width) (ie oe : Endianness) (rest : List Nat),
    validate s.wMax iw.toNat ow.toNat = .none → (∀ x ∈ xs, x < 2 ^ iw.toNat) →
    ∃ (t : State) (burst : List Nat),
      run (xs.length + 1)
        { s with
          commandPort := (encode s.wMax (.cfg iw ie ow oe)).word :: (xs.map (pushWord s.wMax) ++ rest) } = .next t ∧
      t.phase = .run ∧ t.commandPort = rest ∧ t.outputPort = s.outputPort ++ burst ∧
      (t.mode = .eq → burst.length = xs.length) ∧
      (t.mode = .exp → burst.length = t.k.toNat * xs.length) ∧
      (t.mode = .imp → burst.length = xs.length / t.k.toNat ∧ t.idx.toNat = xs.length % t.k.toNat ∧
        t.acc =
          implodeFrom t.lw t.du t.db iw.toNat ow.toNat 0 0
            (xs.drop (xs.length / t.k.toNat * t.k.toNat)))

/-- The refinement (`47_commands.md` R160): from every state, a whole call ends after `n + 2` steps with the outcome of
`pack`: in DONE with its output stream, or in ERR with its cause, the chunks emitted before a late error being the
output for the completed prefix. Nothing of it depends on the state the call starts from. -/
def Obligations.MachineRefinesPack : Prop :=
  ∀ (s : State) (xs : List Nat) (iw ow : Width) (ie oe : Endianness) (rest : List Nat),
    (∀ x ∈ xs, x < 2 ^ Config.argBits s.wMax) →
    ∃ (t : State) (burst : List Nat),
      run (xs.length + 2) { s with commandPort := callWords s.wMax xs iw ie ow oe ++ rest } = .next t ∧
      t.commandPort = rest ∧ t.outputPort = s.outputPort ++ burst ∧
      match pack s.wMax xs iw.toNat ie ow.toNat oe with
      | .ok ys => t.phase = .done ∧ t.cause = .none ∧ burst = ys
      | .err c =>
        t.phase = .err ∧ t.cause = c ∧
        (validate s.wMax iw.toNat ow.toNat ≠ .none → burst = []) ∧
        (validate s.wMax iw.toNat ow.toNat = .none →
          pack s.wMax (completedPrefix xs iw.toNat ow.toNat) iw.toNat ie ow.toNat oe =
            .ok burst)
end

