-- ==== Sys2Proof/Laws/Bits.lean ====
section
/-! SUPPORT. The reversers bit by bit: which bit of the chunk each bit of the result is (`41_reversers.md` R80 to R84). -/

namespace Sys2Proof.Machine

theorem testBit_mask (n t : Nat) : (mask n).testBit t = decide (t < n) := by
  simp [mask, Nat.testBit_two_pow_sub_one]

theorem land_mask (v n : Nat) : v &&& mask n = v % 2 ^ n := by
  simp [mask, Nat.and_two_pow_sub_one_eq_mod]

theorem foldl_or_testBit (f : Nat → Nat) (l : List Nat) (a t : Nat) :
    (l.foldl (fun r j => r ||| f j) a).testBit t = (a.testBit t || l.any fun j => (f j).testBit t) := by
  induction l generalizing a with
  | nil => simp
  | cons j l ih => simp [ih, Bool.or_assoc]

/-- The one lemma about the reversers' loop: a bit of the result is a bit of some turn. -/
theorem orOver_testBit (n : Nat) (f : Nat → Nat) (t : Nat) :
    (orOver n f).testBit t = decide (∃ j < n, (f j).testBit t = true) := by
  rw [orOver, foldl_or_testBit, Bool.eq_iff_iff]
  simp

theorem unitOf_testBit (v j t : Nat) : (unitOf v j).testBit t = (decide (t < 8) && v.testBit (8 * j + t)) := by
  rw [unitOf, Nat.testBit_and, Nat.testBit_shiftRight, testBit_mask, Bool.and_comm, Nat.mul_comm]

theorem unitOf_lt (v j : Nat) : unitOf v j < 256 := by
  rw [unitOf, land_mask]
  exact Nat.mod_lt _ (by decide)

/-- `bitrev_unit` bit by bit (`41_reversers.md` R81). -/
theorem bitrevUnit_testBit (b t : Nat) : (bitrevUnit b).testBit t = (decide (t < 8) && b.testBit (7 - t)) := by
  rw [bitrevUnit, orOver_testBit, Bool.eq_iff_iff]
  simp only [Config.unitBits, Nat.testBit_shiftLeft, Bool.and_eq_true, decide_eq_true_eq]
  constructor
  · rintro ⟨j, hj, hle, hb⟩
    have h0 : t - (8 - 1 - j) = 0 := by
      by_contra hne
      have : 1 ≤ t - (8 - 1 - j) := by omega
      have hbool : ((b.testBit j).toNat).testBit (t - (8 - 1 - j)) = false :=
        Nat.testBit_lt_two_pow
          (Nat.lt_of_lt_of_le (Nat.lt_of_le_of_lt (Bool.toNat_le _) (by decide : 1 < 2 ^ 1))
            (Nat.pow_le_pow_right (by decide) this))
      simp_all
    rw [h0] at hb
    have ht : t = 7 - j := by omega
    subst ht
    refine ⟨by omega, ?_⟩
    rw [show 7 - (7 - j) = j by omega]
    cases h : b.testBit j <;> simp_all
  · rintro ⟨ht, hb⟩
    refine ⟨7 - t, by omega, by omega, ?_⟩
    rw [show t - (8 - 1 - (7 - t)) = 0 by omega, hb]
    rfl

theorem bitrevUnit_lt (b : Nat) : bitrevUnit b < 256 :=
  Nat.lt_pow_two_of_testBit (n := 8) _ fun i hi => by
    rw [bitrevUnit_testBit]
    simp [Nat.not_lt.mpr hi]

/-- `rev_units` bit by bit (`41_reversers.md` R80): unit `j` goes to place `n - 1 - j`. -/
theorem revUnits_testBit (v n t : Nat) :
    (revUnits v (8 * n)).testBit t = (decide (t < 8 * n) && v.testBit (8 * (n - 1 - t / 8) + t % 8)) := by
  rw [revUnits, show 8 * n / Config.unitBits = n by simp, orOver_testBit, Bool.eq_iff_iff]
  simp only [Config.unitBits, Nat.testBit_shiftLeft, Bool.and_eq_true, decide_eq_true_eq, unitOf_testBit]
  constructor
  · rintro ⟨j, hj, hle, ht, hb⟩
    have h1 : t / 8 = n - 1 - j := by omega
    refine ⟨by omega, ?_⟩
    rw [h1, show n - 1 - (n - 1 - j) = j by omega]
    rwa [show t - (n - 1 - j) * 8 = t % 8 by omega] at hb
  · rintro ⟨ht, hb⟩
    refine ⟨n - 1 - t / 8, by omega, by omega, by omega, ?_⟩
    rwa [show t - (n - 1 - (n - 1 - t / 8)) * 8 = t % 8 by omega]

/-- `rev_bits` bit by bit (`41_reversers.md` R82): units stay in place, each is reversed within itself. -/
theorem revBits_testBit (v n t : Nat) :
    (revBits v (8 * n)).testBit t = (decide (t < 8 * n) && v.testBit (8 * (t / 8) + (7 - t % 8))) := by
  rw [revBits, show 8 * n / Config.unitBits = n by simp, orOver_testBit, Bool.eq_iff_iff]
  simp only [Config.unitBits, Nat.testBit_shiftLeft, Bool.and_eq_true, decide_eq_true_eq, unitOf_testBit, bitrevUnit_testBit]
  constructor
  · rintro ⟨j, hj, hle, ht, ht', hb⟩
    have h1 : t / 8 = j := by omega
    refine ⟨by omega, ?_⟩
    rw [h1]
    rwa [show t - j * 8 = t % 8 by omega] at hb
  · rintro ⟨ht, hb⟩
    refine ⟨t / 8, by omega, by omega, by omega, by omega, ?_⟩
    rwa [show t - t / 8 * 8 = t % 8 by omega]

/-- Which bit of the chunk becomes bit `t` of `xform` at `n` units. -/
def xformSource (du db : Bool) (n t : Nat) : Nat :=
  8 * (if du then n - 1 - t / 8 else t / 8) + (if db then 7 - t % 8 else t % 8)

theorem testBit_of_lt {v w t : Nat} (h : v < 2 ^ w) (ht : w ≤ t) : v.testBit t = false :=
  Nat.testBit_lt_two_pow (Nat.lt_of_lt_of_le h (Nat.pow_le_pow_right (by decide) ht))

theorem testBit_eq_decide_and {v w : Nat} (h : v < 2 ^ w) (t : Nat) :
    v.testBit t = (decide (t < w) && v.testBit t) := by
  by_cases ht : t < w
  · simp [ht]
  · simp [ht, testBit_of_lt h (Nat.not_lt.mp ht)]

/-- The one lemma about `xform` (`41_reversers.md` R84): each bit of the result is one bit of the chunk. -/
theorem xform_testBit {v n : Nat} (hv : v < 2 ^ (8 * n)) (du db : Bool) (t : Nat) :
    (xform v (8 * n) du db).testBit t = (decide (t < 8 * n) && v.testBit (xformSource du db n t)) := by
  have hdiv : (8 * (t / 8) + (7 - t % 8)) / 8 = t / 8 := by omega
  have hmod : (8 * (t / 8) + (7 - t % 8)) % 8 = 7 - t % 8 := by omega
  cases du <;> cases db <;> simp only [xform, xformSource, if_true, if_false, Bool.false_eq_true]
  · rw [Nat.div_add_mod]
    exact testBit_eq_decide_and hv t
  · exact revBits_testBit v n t
  · exact revUnits_testBit v n t
  · rw [revBits_testBit, revUnits_testBit, hdiv, hmod]
    by_cases ht : t < 8 * n
    · simp only [ht, decide_true, Bool.true_and]
      rw [decide_eq_true (by omega), Bool.true_and]
    · simp [ht]

theorem lt_two_pow_of_testBit {v w : Nat} (f : Nat → Bool) (h : ∀ t, v.testBit t = (decide (t < w) && f t)) :
    v < 2 ^ w :=
  Nat.lt_pow_two_of_testBit _ fun t ht => by simp [h, Nat.not_lt.mpr ht]

theorem xform_lt {v n : Nat} (hv : v < 2 ^ (8 * n)) (du db : Bool) : xform v (8 * n) du db < 2 ^ (8 * n) :=
  lt_two_pow_of_testBit _ fun t => xform_testBit hv du db t

theorem xformSource_lt {du db : Bool} {n t : Nat} (ht : t < 8 * n) : xformSource du db n t < 8 * n := by
  cases du <;> cases db <;> simp only [xformSource, if_true, if_false, Bool.false_eq_true] <;> omega

theorem xformSource_xformSource {du db : Bool} {n t : Nat} (ht : t < 8 * n) :
    xformSource du db n (xformSource du db n t) = t := by
  cases du <;> cases db <;> simp only [xformSource, if_true, if_false, Bool.false_eq_true] <;> omega

/-- `xform` undoes itself (`41_reversers.md` R84). -/
theorem xform_xform {v n : Nat} (hv : v < 2 ^ (8 * n)) (du db : Bool) :
    xform (xform v (8 * n) du db) (8 * n) du db = v := by
  refine Nat.eq_of_testBit_eq fun t => ?_
  rw [xform_testBit (xform_lt hv du db), xform_testBit hv]
  by_cases ht : t < 8 * n
  · simp [ht, xformSource_lt ht, xformSource_xformSource ht]
  · simp [ht, testBit_of_lt hv (Nat.not_lt.mp ht)]

/-- A width is eight times a positive number of units. -/
theorem isChunkWidth_iff {w : Nat} : isChunkWidth w = true ↔ ∃ n, 0 < n ∧ w = 8 * n := by
  simp only [isChunkWidth, Config.unitBits, Bool.and_eq_true, decide_eq_true_eq]
  constructor
  · rintro ⟨h0, h1⟩
    exact ⟨w / 8, by omega, by omega⟩
  · rintro ⟨n, hn, rfl⟩
    exact ⟨by omega, by simp⟩

theorem isChunk_iff {v w : Nat} : isChunk v w = true ↔ isChunkWidth w = true ∧ v < 2 ^ w := by
  simp [isChunk]

end Sys2Proof.Machine
end

