-- ==== Sys2Proof/Laws/Decode.lean ====
section
/-! SUPPORT. The fields of what the encoder writes (`30_encoding.md` R50, R53, R56, R58). -/

namespace Sys2Proof

/-! ## Command words -/

theorem argBits_ge (wMax : Nat) : 68 ≤ Config.argBits wMax := Nat.le_max_left ..

/-- A legal chunk fits the operand (`00_scope.md` R7). -/
theorem wMax_le_argBits (wMax : Nat) : wMax ≤ Config.argBits wMax := Nat.le_max_right ..

theorem two_pow_cwBits (wMax : Nat) : 2 ^ Config.cwBits wMax = 16 * 2 ^ Config.argBits wMax := by
  rw [Config.cwBits, Nat.pow_add]

/-- The operand field as a number of operand bits of the default instance and a rest, for `omega`. -/
theorem two_pow_argBits (wMax : Nat) : ∃ k, 2 ^ Config.argBits wMax = 2 ^ 68 * k ∧ 0 < k :=
  ⟨2 ^ (Config.argBits wMax - 68), by rw [← Nat.pow_add, Nat.add_sub_cancel' (argBits_ge wMax)], Nat.two_pow_pos _⟩

@[simp] theorem opField_commandWord (wMax : Nat) (op : BitVec 4) (arg : Nat) :
    opField wMax (commandWord wMax op arg) = op := by
  have h := Nat.mod_lt arg (Nat.two_pow_pos (Config.argBits wMax))
  rw [opField, commandWord, Nat.mul_add_div (Nat.two_pow_pos _), Nat.div_eq_of_lt h, Nat.add_zero,
    BitVec.ofNat_toNat, BitVec.setWidth_eq]

@[simp] theorem argField_commandWord (wMax : Nat) (op : BitVec 4) (arg : Nat) :
    argField wMax (commandWord wMax op arg) = arg % 2 ^ Config.argBits wMax := by
  rw [argField, commandWord, Nat.mul_add_mod, Nat.mod_mod]

theorem commandWord_lt (wMax : Nat) (op : BitVec 4) (arg : Nat) :
    commandWord wMax op arg < 2 ^ Config.cwBits wMax := by
  have h := Nat.mod_lt arg (Nat.two_pow_pos (Config.argBits wMax))
  have hop : op.toNat < 16 := op.isLt
  rw [two_pow_cwBits, commandWord]
  calc 2 ^ Config.argBits wMax * op.toNat + arg % 2 ^ Config.argBits wMax
      < 2 ^ Config.argBits wMax * (op.toNat + 1) := Nat.add_lt_add_left h _
    _ ≤ 2 ^ Config.argBits wMax * 16 := Nat.mul_le_mul_left _ hop
    _ = 16 * 2 ^ Config.argBits wMax := Nat.mul_comm ..

/-- Of a word of `CW_BITS` bits, `op` loses nothing. -/
theorem opField_toNat {wMax : Nat} {w : Nat} (h : w < 2 ^ Config.cwBits wMax) :
    (opField wMax w).toNat = w / 2 ^ Config.argBits wMax := by
  rw [two_pow_cwBits] at h
  rw [opField, BitVec.toNat_ofNat]
  exact Nat.mod_eq_of_lt ((Nat.div_lt_iff_lt_mul (Nat.two_pow_pos _)).mpr h)

/-- A command word is its two fields (`30_encoding.md` R50). -/
theorem commandWord_fields {wMax : Nat} {w : Nat} (h : w < 2 ^ Config.cwBits wMax) :
    commandWord wMax (opField wMax w) (argField wMax w) = w := by
  rw [commandWord, opField_toNat h, argField, Nat.mod_mod, Nat.div_add_mod]

theorem argField_lt (wMax : Nat) (w : Nat) : argField wMax w < 2 ^ Config.argBits wMax :=
  Nat.mod_lt _ (Nat.two_pow_pos _)

/-! ## The operand of CFG -/

@[simp] theorem ofCode_code (e : Endianness) : Endianness.ofCode e.code = e := by
  rcases e with ⟨⟨⟩, ⟨⟩⟩ <;> decide

@[simp] theorem code_ofCode (c : BitVec 2) : (Endianness.ofCode c).code = c := by
  revert c
  decide

theorem endianness_eq_of_code_toNat {e e' : Endianness} (h : e.code.toNat = e'.code.toNat) : e = e' := by
  rw [← ofCode_code e, BitVec.eq_of_toNat_eq h, ofCode_code]

theorem inWidthField_toNat (a : Nat) : (inWidthField a).toNat = a % 2 ^ 32 := BitVec.toNat_ofNat ..

theorem outWidthField_toNat (a : Nat) : (outWidthField a).toNat = a / 2 ^ 32 % 2 ^ 32 := BitVec.toNat_ofNat ..

theorem inEndField_code_toNat (a : Nat) : (inEndField a).code.toNat = a / 2 ^ 64 % 4 := by
  rw [inEndField, code_ofCode, BitVec.toNat_ofNat]

theorem outEndField_code_toNat (a : Nat) : (outEndField a).code.toNat = a / 2 ^ 66 % 4 := by
  rw [outEndField, code_ofCode, BitVec.toNat_ofNat]

theorem cfgArg_lt (iw ow : Width) (ie oe : Endianness) : cfgArg iw ie ow oe < 2 ^ 68 := by
  have := iw.isLt
  have := ow.isLt
  have := ie.code.isLt
  have := oe.code.isLt
  rw [cfgArg]
  omega

/-- The operand of CFG fits the operand field of every instance. -/
theorem cfgArg_mod (wMax : Nat) (iw ow : Width) (ie oe : Endianness) :
    cfgArg iw ie ow oe % 2 ^ Config.argBits wMax = cfgArg iw ie ow oe :=
  Nat.mod_eq_of_lt (Nat.lt_of_lt_of_le (cfgArg_lt ..) (Nat.pow_le_pow_right (by decide) (argBits_ge wMax)))

@[simp] theorem inWidthField_cfgArg (iw ow : Width) (ie oe : Endianness) :
    inWidthField (cfgArg iw ie ow oe) = iw := by
  refine BitVec.eq_of_toNat_eq ?_
  have := iw.isLt
  rw [inWidthField_toNat, cfgArg]
  omega

@[simp] theorem outWidthField_cfgArg (iw ow : Width) (ie oe : Endianness) :
    outWidthField (cfgArg iw ie ow oe) = ow := by
  refine BitVec.eq_of_toNat_eq ?_
  have := iw.isLt
  have := ow.isLt
  rw [outWidthField_toNat, cfgArg]
  omega

@[simp] theorem inEndField_cfgArg (iw ow : Width) (ie oe : Endianness) :
    inEndField (cfgArg iw ie ow oe) = ie := by
  refine endianness_eq_of_code_toNat ?_
  have := iw.isLt
  have := ow.isLt
  have := ie.code.isLt
  rw [inEndField_code_toNat, cfgArg]
  omega

@[simp] theorem outEndField_cfgArg (iw ow : Width) (ie oe : Endianness) :
    outEndField (cfgArg iw ie ow oe) = oe := by
  refine endianness_eq_of_code_toNat ?_
  have := iw.isLt
  have := ow.isLt
  have := ie.code.isLt
  have := oe.code.isLt
  rw [outEndField_code_toNat, cfgArg]
  omega

/-- The fields of an operand are those of its low 68 bits (`30_encoding.md` R53). -/
theorem cfgArg_fields (a : Nat) :
    cfgArg (inWidthField a) (inEndField a) (outWidthField a) (outEndField a) = a % 2 ^ 68 := by
  rw [cfgArg, inWidthField_toNat, outWidthField_toNat, inEndField_code_toNat, outEndField_code_toNat]
  omega

/-! ## What the decoder gives for the encoder's words -/

@[simp] theorem decode_rst (wMax arg : Nat) : decode wMax (commandWord wMax 0x0#4 arg) = .rst := by
  simp [decode]

@[simp] theorem decode_cfg (wMax : Nat) (iw ow : Width) (ie oe : Endianness) :
    decode wMax (commandWord wMax 0x1#4 (cfgArg iw ie ow oe)) = .cfg iw ie ow oe := by
  simp [decode, cfgArg_mod]

@[simp] theorem decode_pushWord {wMax : Nat} {arg : Nat} (h : arg < 2 ^ Config.argBits wMax) :
    decode wMax (pushWord wMax arg) = .push arg := by
  simp [decode, pushWord, Nat.mod_eq_of_lt h]

@[simp] theorem decode_endStream (wMax arg : Nat) : decode wMax (commandWord wMax 0x3#4 arg) = .endStream := by
  simp [decode]

/-- What the decoder reads from the opcodes 4 to 7 (`30_encoding.md` R51). -/
theorem opcode47_fields (r : BitVec 2) :
    (0b01#2 ++ r).getLsbD 3 = false ∧ (0b01#2 ++ r).extractLsb' 0 2 = r ∧
    0b01#2 ++ r ≠ 0#4 ∧ 0b01#2 ++ r ≠ 1#4 ∧ 0b01#2 ++ r ≠ 2#4 ∧ 0b01#2 ++ r ≠ 3#4 := by
  revert r
  decide

/-- What the decoder reads from the opcodes 8 to 15. -/
theorem opcode8F_fields (r : BitVec 3) :
    (1#1 ++ r).getLsbD 3 = true ∧ (1#1 ++ r).extractLsb' 0 3 = r ∧
    1#1 ++ r ≠ 0#4 ∧ 1#1 ++ r ≠ 1#4 ∧ 1#1 ++ r ≠ 2#4 ∧ 1#1 ++ r ≠ 3#4 := by
  revert r
  decide

@[simp] theorem decode_reserved47 (wMax : Nat) (r : BitVec 2) (arg : Nat) :
    decode wMax (commandWord wMax (0b01#2 ++ r) arg) = .reserved47 r := by
  obtain ⟨h, he, h0, h1, h2, h3⟩ := opcode47_fields r
  simp only [decode, opField_commandWord, h0, h1, h2, h3, h, he, if_false, Bool.false_eq_true]

@[simp] theorem decode_reserved8F (wMax : Nat) (r : BitVec 3) (arg : Nat) :
    decode wMax (commandWord wMax (1#1 ++ r) arg) = .reserved8F r := by
  obtain ⟨h, he, h0, h1, h2, h3⟩ := opcode8F_fields r
  simp only [decode, opField_commandWord, h0, h1, h2, h3, h, he, if_false, if_true]

/-! ## Control words and status words -/

/-- A concatenation as a number. -/
theorem append_toNat {m n : Nat} (x : BitVec m) (y : BitVec n) : (x ++ y).toNat = x.toNat * 2 ^ n + y.toNat := by
  rw [BitVec.toNat_append, ← Nat.shiftLeft_add_eq_or_of_lt y.isLt, Nat.shiftLeft_eq]

/-- The fields of a control word (`30_encoding.md` R58). -/
theorem controlWordOf_injective {m m' : BitVec 2} {u b l u' b' l' : Bool} :
    controlWordOf m u b l = controlWordOf m' u' b' l' ↔ m = m' ∧ u = u' ∧ b = b' ∧ l = l' := by
  revert m m'
  cases u <;> cases b <;> cases l <;> cases u' <;> cases b' <;> cases l' <;> decide

/-- Every control word comes from its fields. -/
theorem exists_controlWordOf (c : ControlWord) : ∃ m u b l, c = controlWordOf m u b l := by
  refine ⟨c.extractLsb' 3 2, c.getLsbD 2, c.getLsbD 1, c.getLsbD 0, ?_⟩
  revert c
  decide

theorem decodeControl_eq (u b l : Bool) (arg : Nat) :
    decodeControl (controlWordOf 0b01#2 u b l) arg = (if l then .error .neverOccurs else .ok (.pushEq u b arg)) ∧
    decodeControl (controlWordOf 0b10#2 u b l) arg = .ok (.pushImp u b l arg) ∧
    decodeControl (controlWordOf 0b11#2 u b l) arg = .ok (.pushExp u b l arg) ∧
    decodeControl (controlWordOf 0b00#2 u b l) arg =
      .error (if u || b || l then .neverOccurs else .noAlgorithm) := by
  cases u <;> cases b <;> cases l <;> refine ⟨?_, ?_, ?_, ?_⟩ <;> rfl

end Sys2Proof
end

