-- ==== Sys2Proof/Laws/Windows.lean ====
section
/-! SUPPORT. The shift resolver as slots of a wide chunk (`42_shift_resolver.md` R93, R94), and what the imploder and the
exploder put in and take from them (`43_imploder.md` R103, `44_exploder.md` R113). -/

namespace Sys2Proof.Machine

/-- A legal pair of a small and a big width: `n` units, taken `k` times. -/
theorem isRatio_iff {small big : Nat} :
    isRatio small big = true ↔ ∃ n k, 0 < n ∧ 0 < k ∧ small = 8 * n ∧ big = k * (8 * n) := by
  simp only [isRatio, Bool.and_eq_true, decide_eq_true_eq, isChunkWidth_iff]
  constructor
  · rintro ⟨⟨⟨n, hn, rfl⟩, m, hm, rfl⟩, hd⟩
    obtain ⟨k, hk⟩ := Nat.dvd_of_mod_eq_zero hd
    refine ⟨n, k, hn, Nat.pos_of_ne_zero ?_, rfl, by rw [hk, Nat.mul_comm]⟩
    rintro rfl
    omega
  · rintro ⟨n, k, hn, hk, rfl, rfl⟩
    refine ⟨⟨⟨n, hn, rfl⟩, k * n, Nat.mul_pos hk hn, by ring⟩, by simp⟩

/-- The place, counted in small widths from the least significant, of sub-chunk `i` of `k`. -/
def slot (wideLittle : Bool) (k i : Nat) : Nat := if wideLittle then i else k - 1 - i

theorem slot_lt {lw : Bool} {k i : Nat} (h : i < k) : slot lw k i < k := by
  cases lw <;> simp only [slot, if_true, if_false, Bool.false_eq_true] <;> omega

theorem slot_slot {lw : Bool} {k i : Nat} (h : i < k) : slot lw k (slot lw k i) = i := by
  cases lw <;> simp only [slot, if_true, if_false, Bool.false_eq_true]
  omega

theorem slot_injective {lw : Bool} {k i j : Nat} (hi : i < k) (hj : j < k) (h : slot lw k i = slot lw k j) :
    i = j := by
  rw [← slot_slot (lw := lw) hi, h, slot_slot hj]

/-- The one lemma about the shift: it is the slot's place (`42_shift_resolver.md` R93). -/
theorem placeShift_eq {lw : Bool} {k i s : Nat} (h : i < k) : placeShift lw i s (k * s) = slot lw k i * s := by
  cases lw <;> simp only [placeShift, processedBits, slot, if_true, if_false, Bool.false_eq_true]
  obtain ⟨d, rfl⟩ : ∃ d, k = i + 1 + d := ⟨k - (i + 1), by omega⟩
  rw [show i + 1 + d - 1 - i = d by omega, show (i + 1 + d) * s = (s + i * s) + d * s by ring]
  exact Nat.add_sub_cancel_left ..

/-- The window of a wide chunk at a slot. -/
def window (v s j : Nat) : Nat := (v >>> (j * s)) &&& mask s

theorem window_testBit (v s j t : Nat) : (window v s j).testBit t = (decide (t < s) && v.testBit (j * s + t)) := by
  rw [window, Nat.testBit_and, Nat.testBit_shiftRight, testBit_mask, Bool.and_comm]

theorem window_lt (v s j : Nat) : window v s j < 2 ^ s := lt_two_pow_of_testBit _ (window_testBit v s j)

/-- Two chunks with the same windows are the same chunk. -/
theorem eq_of_window_eq {v v' s k : Nat} (hv : v < 2 ^ (k * s)) (hv' : v' < 2 ^ (k * s))
    (h : ∀ j < k, window v s j = window v' s j) : v = v' := by
  refine Nat.eq_of_testBit_eq fun t => ?_
  by_cases ht : t < k * s
  · have hs : 0 < s := Nat.pos_of_ne_zero fun h0 => by simp [h0] at ht
    have hj : t / s < k := (Nat.div_lt_iff_lt_mul hs).mpr ht
    have := congrArg (fun x => x.testBit (t % s)) (h _ hj)
    simpa [window_testBit, Nat.mod_lt _ hs, Nat.div_add_mod'] using this
  · rw [testBit_of_lt hv (Nat.not_lt.mp ht), testBit_of_lt hv' (Nat.not_lt.mp ht)]

/-- The imploder's loop, window by window: a slot holds what the accumulator held there, or the transformed chunk whose
slot it is. -/
theorem implodeFrom_testBit {lw du db : Bool} {n k : Nat} (g : List Nat) :
    ∀ {i acc : Nat}, i + g.length ≤ k → (∀ x ∈ g, x < 2 ^ (8 * n)) → ∀ {j t : Nat}, t < 8 * n →
      (implodeFrom lw du db (8 * n) (k * (8 * n)) i acc g).testBit (j * (8 * n) + t) =
        (acc.testBit (j * (8 * n) + t) ||
          decide (∃ q, ∃ h : q < g.length, slot lw k (i + q) = j ∧
            (xform g[q] (8 * n) du db).testBit t = true)) := by
  induction g with
  | nil => simp [implodeFrom]
  | cons x g ih =>
    intro i acc hlen hx j t ht
    have hi : i < k := by simp at hlen; omega
    rw [implodeFrom, ih (by simp at hlen; omega) (fun y hy => hx y (by simp [hy])) ht, implodeStep,
      placeShift_eq hi, Nat.testBit_or, Nat.testBit_shiftLeft, Bool.or_assoc]
    congr 1
    rw [Bool.eq_iff_iff]
    simp only [Bool.or_eq_true, Bool.and_eq_true, decide_eq_true_eq]
    have hxlt := xform_lt (hx x (by simp)) du db
    constructor
    · rintro (⟨hle, hb⟩ | ⟨q, hq, hs, hb⟩)
      · refine ⟨0, by simp, ?_⟩
        have hlt : j * (8 * n) + t - slot lw k i * (8 * n) < 8 * n := by
          by_contra hge
          rw [testBit_of_lt hxlt (Nat.not_lt.mp hge)] at hb
          cases hb
        have hj : slot lw k i = j := by
          have h1 : slot lw k i < j + 1 := by
            refine Nat.lt_of_mul_lt_mul_right (a := 8 * n) ?_
            rw [Nat.add_mul]
            omega
          have h2 : j < slot lw k i + 1 := by
            refine Nat.lt_of_mul_lt_mul_right (a := 8 * n) ?_
            rw [Nat.add_mul]
            omega
          omega
        subst hj
        refine ⟨rfl, ?_⟩
        simpa using hb
      · exact ⟨q + 1, by simpa using hq, by rw [← hs]; congr 1; omega, by simpa using hb⟩
    · rintro ⟨q, hq, hs, hb⟩
      cases q with
      | zero =>
        left
        simp only [Nat.add_zero] at hs
        subst hs
        exact ⟨Nat.le_add_right .., by simpa using hb⟩
      | succ q =>
        right
        exact ⟨q, by simpa using hq, by rw [← hs]; congr 1; omega, by simpa using hb⟩

/-- The imploder's loop stays below `2 ^ OW`. -/
theorem implodeFrom_lt {lw du db : Bool} {n k : Nat} (g : List Nat) :
    ∀ {i acc : Nat}, i + g.length ≤ k → (∀ x ∈ g, x < 2 ^ (8 * n)) → acc < 2 ^ (k * (8 * n)) →
      implodeFrom lw du db (8 * n) (k * (8 * n)) i acc g < 2 ^ (k * (8 * n)) := by
  induction g with
  | nil => intro i acc _ _ h; exact h
  | cons x g ih =>
    intro i acc hlen hx hacc
    have hi : i < k := by simp at hlen; omega
    refine ih (by simp at hlen; omega) (fun y hy => hx y (by simp [hy])) ?_
    rw [implodeStep, placeShift_eq hi]
    refine Nat.or_lt_two_pow hacc ?_
    have h1 := xform_lt (hx x (by simp)) du db
    have h2 : slot lw k i + 1 ≤ k := slot_lt hi
    calc xform x (8 * n) du db <<< (slot lw k i * (8 * n))
        < 2 ^ (8 * n) * 2 ^ (slot lw k i * (8 * n)) := by
          rw [Nat.shiftLeft_eq]
          exact Nat.mul_lt_mul_of_pos_right h1 (Nat.two_pow_pos _)
      _ = 2 ^ ((slot lw k i + 1) * (8 * n)) := by rw [← Nat.pow_add]; congr 1; ring
      _ ≤ 2 ^ (k * (8 * n)) := Nat.pow_le_pow_right (by decide) (Nat.mul_le_mul_right _ h2)

/-- What a whole group puts in the window of chunk `q` (`43_imploder.md` R103). -/
theorem window_implode {lw du db : Bool} {n k : Nat} {g : List Nat} (hlen : g.length = k)
    (hx : ∀ x ∈ g, x < 2 ^ (8 * n)) {q : Nat} (hq : q < k) :
    window (implodeFrom lw du db (8 * n) (k * (8 * n)) 0 0 g) (8 * n) (slot lw k q) =
      xform (g[q]'(hlen ▸ hq)) (8 * n) du db := by
  have hmem : g[q]'(hlen ▸ hq) ∈ g := List.getElem_mem _
  refine Nat.eq_of_testBit_eq fun t => ?_
  rw [window_testBit]
  by_cases ht : t < 8 * n
  · rw [implodeFrom_testBit g (by omega) hx ht, Bool.eq_iff_iff]
    simp only [ht, decide_true, Bool.true_and, Nat.zero_testBit, Bool.false_or, decide_eq_true_eq, Nat.zero_add]
    constructor
    · rintro ⟨q', hq', hs, hb⟩
      have := slot_injective (hlen ▸ hq') hq hs
      subst this
      exact hb
    · exact fun hb => ⟨q, hlen ▸ hq, rfl, hb⟩
  · rw [testBit_of_lt (xform_lt (hx _ hmem) du db) (Nat.not_lt.mp ht)]
    simp [ht]

/-- What the exploder takes from a wide chunk (`44_exploder.md` R111). -/
theorem explodePiece_eq {lw du db : Bool} {n k : Nat} (x : Nat) {i : Nat} (hi : i < k) :
    explodePiece lw du db (k * (8 * n)) (8 * n) x i =
      xform (window x (8 * n) (slot lw k i)) (8 * n) du db := by
  rw [explodePiece, placeShift_eq hi, window]

end Sys2Proof.Machine
end

