-- ==== Sys2Proof/Laws/Units.lean ====
section
/-! SUPPORT. The units a chunk stands for in the reference form: `xform` does not change them, a wide chunk has those of
its windows in order, and they determine the chunk (`20_memory.md` R35, `48_laws.md` R173). -/

namespace Sys2Proof.Machine

/-- Unit `u`, in the order of the reference form, of a chunk of `n` units. -/
def referenceUnit (n : Nat) (e : Endianness) (v u : Nat) : Nat :=
  if bitIsLittle e then bitrevUnit (unitOf v (slot (unitIsLittle e) n u))
  else unitOf v (slot (unitIsLittle e) n u)

theorem referenceUnits_eq (n : Nat) (e : Endianness) (v : Nat) :
    referenceUnits (8 * n) e v = (List.range n).map (referenceUnit n e v) := by
  have hn : 8 * n / Config.unitBits = n := by simp
  unfold referenceUnits unitsLsbFirst unitsMsbFirst
  rw [hn]
  cases hu : unitIsLittle e <;> cases hb : bitIsLittle e <;>
    simp [referenceUnit, slot, hu, hb, Function.comp_def]

theorem length_referenceUnits (n : Nat) (e : Endianness) (v : Nat) : (referenceUnits (8 * n) e v).length = n := by
  rw [referenceUnits_eq]
  simp

/-- Which bit of a chunk of `n` units is bit `b` of its reference unit `u`. -/
def referenceSource (n : Nat) (e : Endianness) (u b : Nat) : Nat :=
  8 * slot (unitIsLittle e) n u + (if bitIsLittle e then 7 - b else b)

theorem referenceUnit_testBit (n : Nat) (e : Endianness) (v u b : Nat) :
    (referenceUnit n e v u).testBit b = (decide (b < 8) && v.testBit (referenceSource n e u b)) := by
  cases hb : bitIsLittle e <;> simp only [referenceUnit, referenceSource, hb, if_true, if_false, Bool.false_eq_true]
  · rw [unitOf_testBit]
  · rw [bitrevUnit_testBit, unitOf_testBit]
    by_cases h : b < 8
    · simp only [h, decide_true, Bool.true_and]
      rw [decide_eq_true (by omega), Bool.true_and]
    · simp [h]

theorem unitOrdersDiffer_eq (a b : Endianness) : unitOrdersDiffer a b = (unitIsLittle a ^^ unitIsLittle b) := by
  rcases a with ⟨⟨⟩, ⟨⟩⟩ <;> rcases b with ⟨⟨⟩, ⟨⟩⟩ <;> rfl

theorem bitOrdersDiffer_eq (a b : Endianness) : bitOrdersDiffer a b = (bitIsLittle a ^^ bitIsLittle b) := by
  rcases a with ⟨⟨⟩, ⟨⟩⟩ <;> rcases b with ⟨⟨⟩, ⟨⟩⟩ <;> rfl

theorem unitOrdersDiffer_comm (a b : Endianness) : unitOrdersDiffer a b = unitOrdersDiffer b a := by
  rw [unitOrdersDiffer_eq, unitOrdersDiffer_eq, Bool.xor_comm]

theorem bitOrdersDiffer_comm (a b : Endianness) : bitOrdersDiffer a b = bitOrdersDiffer b a := by
  rw [bitOrdersDiffer_eq, bitOrdersDiffer_eq, Bool.xor_comm]

/-- `xform` re-expresses the same units under the other endianness. -/
theorem referenceUnits_xform {n v : Nat} (hv : v < 2 ^ (8 * n)) (ie oe : Endianness) :
    referenceUnits (8 * n) oe (xform v (8 * n) (unitOrdersDiffer ie oe) (bitOrdersDiffer ie oe)) =
      referenceUnits (8 * n) ie v := by
  rw [referenceUnits_eq, referenceUnits_eq]
  refine List.map_congr_left fun u hu => Nat.eq_of_testBit_eq fun b => ?_
  rw [List.mem_range] at hu
  rw [referenceUnit_testBit, referenceUnit_testBit]
  by_cases hb : b < 8
  · have hs : xformSource (unitOrdersDiffer ie oe) (bitOrdersDiffer ie oe) n (referenceSource n oe u b) =
        referenceSource n ie u b := by
      rw [unitOrdersDiffer_eq, bitOrdersDiffer_eq]
      simp only [xformSource, referenceSource, slot]
      generalize unitIsLittle ie = a, unitIsLittle oe = a', bitIsLittle ie = c, bitIsLittle oe = c'
      cases a <;> cases a' <;> cases c <;> cases c' <;>
        simp only [Bool.xor_false, Bool.xor_true, Bool.not_true, Bool.not_false, if_true, if_false,
          Bool.false_eq_true] <;> omega
    have hlt : referenceSource n oe u b < 8 * n := by
      have := slot_lt (lw := unitIsLittle oe) hu
      rw [referenceSource]
      split <;> omega
    rw [xform_testBit hv, hs]
    simp [hlt]
  · simp [hb]

/-- The units determine the chunk. -/
theorem eq_of_referenceUnits_eq {n v v' : Nat} {e : Endianness} (hv : v < 2 ^ (8 * n)) (hv' : v' < 2 ^ (8 * n))
    (h : referenceUnits (8 * n) e v = referenceUnits (8 * n) e v') : v = v' := by
  rw [referenceUnits_eq, referenceUnits_eq] at h
  refine Nat.eq_of_testBit_eq fun t => ?_
  by_cases ht : t < 8 * n
  · have hu : t / 8 < n := by omega
    have hsl := slot_lt (lw := unitIsLittle e) hu
    have := List.map_inj_left.mp h (slot (unitIsLittle e) n (t / 8)) (List.mem_range.mpr hsl)
    have := congrArg (fun x => x.testBit (if bitIsLittle e then 7 - t % 8 else t % 8)) this
    simp only [referenceUnit_testBit, referenceSource, slot_slot hu] at this
    split at this
    · rw [show 7 - (7 - t % 8) = t % 8 by omega, Nat.div_add_mod, decide_eq_true (by omega)] at this
      simpa using this
    · rw [Nat.div_add_mod, decide_eq_true (by omega)] at this
      simpa using this
  · rw [testBit_of_lt hv (Nat.not_lt.mp ht), testBit_of_lt hv' (Nat.not_lt.mp ht)]

theorem map_range_mul {α : Type} (f : Nat → α) (n k : Nat) :
    (List.range (k * n)).map f = (List.range k).flatMap fun i => (List.range n).map fun u => f (i * n + u) := by
  induction k with
  | zero => simp
  | succ k ih =>
    rw [Nat.succ_mul, List.range_add, List.map_append, ih, List.range_succ, List.flatMap_append]
    simp [Function.comp_def]

/-- A wide chunk has the units of its windows, in the order of its unit order. -/
theorem referenceUnits_split (n k : Nat) (e : Endianness) (v : Nat) :
    referenceUnits (k * (8 * n)) e v =
      (List.range k).flatMap fun i => referenceUnits (8 * n) e (window v (8 * n) (slot (unitIsLittle e) k i)) := by
  rw [show k * (8 * n) = 8 * (k * n) by ring, referenceUnits_eq, map_range_mul]
  refine List.flatMap_congr fun i hi => ?_
  rw [referenceUnits_eq]
  refine List.map_congr_left fun u hu => Nat.eq_of_testBit_eq fun b => ?_
  rw [List.mem_range] at hi hu
  rw [referenceUnit_testBit, referenceUnit_testBit, window_testBit]
  by_cases hb : b < 8
  · have hslot : slot (unitIsLittle e) (k * n) (i * n + u) =
        slot (unitIsLittle e) k i * n + slot (unitIsLittle e) n u := by
      cases unitIsLittle e <;> simp only [slot, if_true, if_false, Bool.false_eq_true]
      obtain ⟨d, rfl⟩ : ∃ d, k = i + 1 + d := ⟨k - (i + 1), by omega⟩
      rw [show i + 1 + d - 1 - i = d by omega, show (i + 1 + d) * n = i * n + n + d * n by ring]
      omega
    have hlt : referenceSource n e u b < 8 * n := by
      have := slot_lt (lw := unitIsLittle e) hu
      rw [referenceSource]
      split <;> omega
    have hsrc : referenceSource (k * n) e (i * n + u) b =
        slot (unitIsLittle e) k i * (8 * n) + referenceSource n e u b := by
      rw [referenceSource, referenceSource, hslot]
      ring
    simp [hb, hlt, hsrc]
  · simp [hb]

/-- The imploder keeps the units. -/
theorem referenceUnits_implodeGroup {n k : Nat} {g : List Nat} (ie oe : Endianness) (hlen : g.length = k)
    (hx : ∀ x ∈ g, x < 2 ^ (8 * n)) :
    referenceUnits (k * (8 * n)) oe (implodeGroup g (8 * n) ie (k * (8 * n)) oe) =
      g.flatMap (referenceUnits (8 * n) ie) := by
  subst hlen
  rw [referenceUnits_split]
  have hcongr : ∀ i ∈ List.range g.length,
      referenceUnits (8 * n) oe
        (window (implodeGroup g (8 * n) ie (g.length * (8 * n)) oe) (8 * n) (slot (unitIsLittle oe) g.length i)) =
      referenceUnits (8 * n) ie (g.getD i 0) := by
    intro i hi
    rw [List.mem_range] at hi
    rw [implodeGroup, window_implode rfl hx hi, referenceUnits_xform (hx _ (List.getElem_mem _)),
      List.getD_eq_getElem _ _ hi]
  rw [List.flatMap_congr hcongr]
  conv_rhs => rw [show g = (List.range g.length).map (fun i => g.getD i 0) from
    List.ext_getElem (by simp) (by simp +contextual)]
  rw [List.flatMap_map]

/-- The exploder keeps the units. -/
theorem referenceUnits_explodeChunk {n k : Nat} (hn : 0 < n) (x : Nat) (ie oe : Endianness) :
    (explodeChunk x (k * (8 * n)) ie (8 * n) oe).flatMap (referenceUnits (8 * n) oe) =
      referenceUnits (k * (8 * n)) ie x := by
  rw [explodeChunk, explodeBurst, Nat.mul_div_cancel _ (by omega), List.flatMap_map, referenceUnits_split]
  refine List.flatMap_congr fun i hi => ?_
  rw [List.mem_range] at hi
  rw [explodePiece_eq x hi, referenceUnits_xform (window_lt ..)]

/-- Streams of chunks of one width are determined by their units. -/
theorem eq_of_streamUnits_eq {n : Nat} (hn : 0 < n) {e : Endianness} :
    ∀ {xs ys : List Nat}, (∀ x ∈ xs, x < 2 ^ (8 * n)) → (∀ y ∈ ys, y < 2 ^ (8 * n)) →
      streamUnits (8 * n) e xs = streamUnits (8 * n) e ys → xs = ys
  | [], [], _, _, _ => rfl
  | [], y :: ys, _, _, h => by
    have := congrArg List.length h
    simp [streamUnits, length_referenceUnits] at this
    omega
  | x :: xs, [], _, _, h => by
    have := congrArg List.length h
    simp [streamUnits, length_referenceUnits] at this
    omega
  | x :: xs, y :: ys, hx, hy, h => by
    simp only [streamUnits, List.flatMap_cons] at h
    obtain ⟨h1, h2⟩ := List.append_inj h (by rw [length_referenceUnits, length_referenceUnits])
    rw [eq_of_referenceUnits_eq (hx x (by simp)) (hy y (by simp)) h1,
      eq_of_streamUnits_eq hn (fun z hz => hx z (by simp [hz])) (fun z hz => hy z (by simp [hz])) h2]

end Sys2Proof.Machine
end

