-- ==== Sys2Proof/Laws/Pack.lean ====
section
/-! SUPPORT. What `validate`, `select` and `pack` can answer (`46_dispatcher.md`). -/

namespace Sys2Proof.Machine

theorem validate_eq_none_iff {wMax iw ow : Nat} :
    validate wMax iw ow = .none ↔
      isChunkWidth iw = true ∧ isChunkWidth ow = true ∧ iw ≤ wMax ∧ ow ≤ wMax ∧ (ow ∣ iw ∨ iw ∣ ow) := by
  simp only [validate, isChunkWidth, Config.unitBits, Bool.and_eq_true, decide_eq_true_eq, Nat.dvd_iff_mod_eq_zero]
  repeat' split
  all_goals simp only [reduceCtorEq, false_iff, true_iff]
  all_goals omega

/-- A legal pair of widths is one of three shapes, over `n` units of the small side and the ratio `k`. -/
inductive LegalShape : Nat → Nat → Prop where
  | eq (n : Nat) : 0 < n → LegalShape (8 * n) (8 * n)
  | imp (n k : Nat) : 0 < n → 2 ≤ k → LegalShape (8 * n) (k * (8 * n))
  | exp (n k : Nat) : 0 < n → 2 ≤ k → LegalShape (k * (8 * n)) (8 * n)

theorem legalShape_of_validate {wMax iw ow : Nat} (h : validate wMax iw ow = .none) : LegalShape iw ow := by
  obtain ⟨hi, ho, -, -, hd⟩ := validate_eq_none_iff.mp h
  obtain ⟨n, hn, rfl⟩ := isChunkWidth_iff.mp hi
  obtain ⟨m, hm, rfl⟩ := isChunkWidth_iff.mp ho
  rcases hd with ⟨k, hk⟩ | ⟨k, hk⟩
  · rcases Nat.lt_or_ge k 2 with h2 | h2
    · interval_cases k
      · omega
      · obtain rfl : n = m := by omega
        exact .eq n hn
    · rw [hk, Nat.mul_comm (8 * m) k]
      exact .exp m k hm h2
  · rcases Nat.lt_or_ge k 2 with h2 | h2
    · interval_cases k
      · omega
      · obtain rfl : n = m := by omega
        exact .eq n hn
    · rw [hk, Nat.mul_comm (8 * n) k]
      exact .imp n k hn h2

theorem lt_mul_of_two_le {a k : Nat} (ha : 0 < a) (hk : 2 ≤ k) : a < k * a := by nlinarith

@[simp] theorem select_self (w : Nat) : select w w = (.eq, 1) := by simp [select]

theorem select_imp {n k : Nat} (hn : 0 < n) (hk : 2 ≤ k) : select (8 * n) (k * (8 * n)) = (.imp, k) := by
  have h := lt_mul_of_two_le (a := 8 * n) (by omega) hk
  rw [select, if_neg h.ne, if_pos h, Nat.mul_div_cancel _ (by omega)]

theorem select_exp {n k : Nat} (hn : 0 < n) (hk : 2 ≤ k) : select (k * (8 * n)) (8 * n) = (.exp, k) := by
  have h := lt_mul_of_two_le (a := 8 * n) (by omega) hk
  rw [select, if_neg h.ne', if_neg (Nat.lt_asymm h), Nat.mul_div_cancel _ (by omega)]

/-- The ways `pack` answers a stream: one for each algorithm. -/
inductive PackOk : List Nat → Nat → Endianness → Nat → Endianness → List Nat → Prop where
  | eq (n : Nat) (xs : List Nat) (ie oe : Endianness) : 0 < n → (∀ x ∈ xs, x < 2 ^ (8 * n)) →
      PackOk xs (8 * n) ie (8 * n) oe (convertStream xs (8 * n) ie oe)
  | imp (n k : Nat) (xs : List Nat) (ie oe : Endianness) : 0 < n → 2 ≤ k → (∀ x ∈ xs, x < 2 ^ (8 * n)) →
      xs.length % k = 0 →
      PackOk xs (8 * n) ie (k * (8 * n)) oe (implodeStream xs (8 * n) ie (k * (8 * n)) oe)
  | exp (n k : Nat) (xs : List Nat) (ie oe : Endianness) : 0 < n → 2 ≤ k → (∀ x ∈ xs, x < 2 ^ (k * (8 * n))) →
      PackOk xs (k * (8 * n)) ie (8 * n) oe (explodeStream xs (k * (8 * n)) ie (8 * n) oe)

theorem PackOk.inRange {xs ys : List Nat} {iw ow : Nat} {ie oe : Endianness} (h : PackOk xs iw ie ow oe ys) :
    ∀ x ∈ xs, x < 2 ^ iw := by
  cases h with
  | eq _ _ _ _ _ h => exact h
  | imp _ _ _ _ _ _ _ h _ => exact h
  | exp _ _ _ _ _ _ _ h => exact h

/-- The one lemma about `pack`: it answers a stream exactly for a legal configuration and a valid stream. -/
theorem pack_eq_ok_iff {wMax : Nat} {xs : List Nat} {iw : Nat} {ie : Endianness} {ow : Nat} {oe : Endianness}
    {ys : List Nat} :
    pack wMax xs iw ie ow oe = .ok ys ↔ validate wMax iw ow = .none ∧ PackOk xs iw ie ow oe ys := by
  unfold pack
  by_cases hv : validate wMax iw ow = .none
  swap
  · simp [hv]
  simp only [hv, ne_eq, not_true_eq_false, if_false, true_and]
  by_cases hr : (xs.any fun x => decide (2 ^ iw ≤ x)) = true
  · simp only [hr, if_true, reduceCtorEq, false_iff]
    simp only [List.any_eq_true, decide_eq_true_eq] at hr
    obtain ⟨x, hx, hle⟩ := hr
    intro h
    exact absurd (h.inRange x hx) (Nat.not_lt.mpr hle)
  · simp only [hr, if_false, Bool.false_eq_true]
    have hall : ∀ x ∈ xs, x < 2 ^ iw := by simpa using hr
    constructor
    · intro h
      cases legalShape_of_validate hv with
      | eq n hn =>
        simp only [select_self, if_true, PackResult.ok.injEq] at h
        subst h
        exact .eq n xs ie oe hn hall
      | imp n k hn hk =>
        simp only [select_imp hn hk, reduceCtorEq, if_false, if_true] at h
        split at h
        · cases h
        · rename_i hm
          simp only [PackResult.ok.injEq] at h
          subst h
          exact .imp n k xs ie oe hn hk hall (by simpa using hm)
      | exp n k hn hk =>
        simp only [select_exp hn hk, reduceCtorEq, if_false, PackResult.ok.injEq] at h
        subst h
        exact .exp n k xs ie oe hn hk hall
    · intro h
      cases h with
      | eq n => simp
      | imp n k _ _ _ hn hk _ hm => simp [select_imp hn hk, hm]
      | exp n k _ _ _ hn hk => simp [select_exp hn hk]

/-- The groups of a stream: the first one, then those of the rest. -/
theorem implodeStream_append {n k : Nat} (hn : 0 < n) (hk : 0 < k) {g xs : List Nat} (hg : g.length = k)
    (ie oe : Endianness) :
    implodeStream (g ++ xs) (8 * n) ie (k * (8 * n)) oe =
      implodeGroup g (8 * n) ie (k * (8 * n)) oe :: implodeStream xs (8 * n) ie (k * (8 * n)) oe := by
  simp only [implodeStream]
  rw [Nat.mul_div_cancel _ (by omega : 0 < 8 * n), List.length_append, hg, Nat.add_div_left _ hk,
    Nat.add_comm (xs.length / k) 1, List.range_add, List.map_append]
  simp only [List.range_one, List.map_cons, List.map_nil, List.map_map, List.singleton_append]
  congr 1
  · rw [groupOf, Nat.zero_mul, List.drop_zero, ← hg, List.take_left]
  · refine List.map_congr_left fun q _ => ?_
    simp only [Function.comp_apply, groupOf]
    rw [show (1 + q) * k = g.length + q * k by rw [hg]; ring, ← List.drop_drop, List.drop_left]

theorem implodeStream_nil (iw ow : Nat) (ie oe : Endianness) : implodeStream [] iw ie ow oe = [] := by
  simp [implodeStream]

/-- Whole groups, one after the other: the induction over the stream of an imploder call. -/
theorem wholeGroups_induction {k : Nat} (hk : 0 < k) {P : List Nat → Prop} (nil : P [])
    (step : ∀ g xs : List Nat, g.length = k → xs.length % k = 0 → P xs → P (g ++ xs)) :
    ∀ m, ∀ xs : List Nat, xs.length = m * k → P xs
  | 0, xs, h => by
    rw [Nat.zero_mul, List.length_eq_zero_iff] at h
    exact h ▸ nil
  | m + 1, xs, h => by
    rw [← List.take_append_drop k xs]
    have hd : (xs.drop k).length = m * k := by
      rw [List.length_drop, h, Nat.succ_mul, Nat.add_sub_cancel]
    refine step _ _ ?_ (by rw [hd, Nat.mul_mod_left]) (wholeGroups_induction hk nil step m _ hd)
    rw [List.length_take, h, Nat.succ_mul]
    omega

end Sys2Proof.Machine
end

