-- ==== Sys2Proof/Laws/State.lean ====
section
/-! SUPPORT. What each update of the state does to each field. -/

namespace Sys2Proof.Machine

variable (s : State)

/-! ## Taking the command from its port -/

@[simp] theorem State.takeCommand_wMax : s.takeCommand.wMax = s.wMax := rfl
@[simp] theorem State.takeCommand_phase : s.takeCommand.phase = s.phase := rfl
@[simp] theorem State.takeCommand_cause : s.takeCommand.cause = s.cause := rfl
@[simp] theorem State.takeCommand_inWidth : s.takeCommand.inWidth = s.inWidth := rfl
@[simp] theorem State.takeCommand_outWidth : s.takeCommand.outWidth = s.outWidth := rfl
@[simp] theorem State.takeCommand_inEnd : s.takeCommand.inEnd = s.inEnd := rfl
@[simp] theorem State.takeCommand_outEnd : s.takeCommand.outEnd = s.outEnd := rfl
@[simp] theorem State.takeCommand_mode : s.takeCommand.mode = s.mode := rfl
@[simp] theorem State.takeCommand_du : s.takeCommand.du = s.du := rfl
@[simp] theorem State.takeCommand_db : s.takeCommand.db = s.db := rfl
@[simp] theorem State.takeCommand_lw : s.takeCommand.lw = s.lw := rfl
@[simp] theorem State.takeCommand_k : s.takeCommand.k = s.k := rfl
@[simp] theorem State.takeCommand_idx : s.takeCommand.idx = s.idx := rfl
@[simp] theorem State.takeCommand_acc : s.takeCommand.acc = s.acc := rfl
@[simp] theorem State.takeCommand_commandPort : s.takeCommand.commandPort = s.commandPort.tail := rfl
@[simp] theorem State.takeCommand_outputPort : s.takeCommand.outputPort = s.outputPort := rfl

/-! ## Emitting a burst -/

@[simp] theorem State.emit_wMax (b : List Nat) : (s.emit b).wMax = s.wMax := rfl
@[simp] theorem State.emit_phase (b : List Nat) : (s.emit b).phase = s.phase := rfl
@[simp] theorem State.emit_cause (b : List Nat) : (s.emit b).cause = s.cause := rfl
@[simp] theorem State.emit_inWidth (b : List Nat) : (s.emit b).inWidth = s.inWidth := rfl
@[simp] theorem State.emit_outWidth (b : List Nat) : (s.emit b).outWidth = s.outWidth := rfl
@[simp] theorem State.emit_inEnd (b : List Nat) : (s.emit b).inEnd = s.inEnd := rfl
@[simp] theorem State.emit_outEnd (b : List Nat) : (s.emit b).outEnd = s.outEnd := rfl
@[simp] theorem State.emit_mode (b : List Nat) : (s.emit b).mode = s.mode := rfl
@[simp] theorem State.emit_du (b : List Nat) : (s.emit b).du = s.du := rfl
@[simp] theorem State.emit_db (b : List Nat) : (s.emit b).db = s.db := rfl
@[simp] theorem State.emit_lw (b : List Nat) : (s.emit b).lw = s.lw := rfl
@[simp] theorem State.emit_k (b : List Nat) : (s.emit b).k = s.k := rfl
@[simp] theorem State.emit_idx (b : List Nat) : (s.emit b).idx = s.idx := rfl
@[simp] theorem State.emit_acc (b : List Nat) : (s.emit b).acc = s.acc := rfl
@[simp] theorem State.emit_commandPort (b : List Nat) : (s.emit b).commandPort = s.commandPort := rfl
@[simp] theorem State.emit_outputPort (b : List Nat) :
    (s.emit b).outputPort = s.outputPort ++ b.map (presented s.wMax s.outWidth.toNat) := rfl

/-! ## Entering the error phase -/

@[simp] theorem State.raise_wMax (c : Cause) : (s.raise c).wMax = s.wMax := rfl
@[simp] theorem State.raise_phase (c : Cause) : (s.raise c).phase = .err := rfl
@[simp] theorem State.raise_cause (c : Cause) : (s.raise c).cause = c := rfl
@[simp] theorem State.raise_inWidth (c : Cause) : (s.raise c).inWidth = s.inWidth := rfl
@[simp] theorem State.raise_outWidth (c : Cause) : (s.raise c).outWidth = s.outWidth := rfl
@[simp] theorem State.raise_inEnd (c : Cause) : (s.raise c).inEnd = s.inEnd := rfl
@[simp] theorem State.raise_outEnd (c : Cause) : (s.raise c).outEnd = s.outEnd := rfl
@[simp] theorem State.raise_mode (c : Cause) : (s.raise c).mode = .none := rfl
@[simp] theorem State.raise_du (c : Cause) : (s.raise c).du = false := rfl
@[simp] theorem State.raise_db (c : Cause) : (s.raise c).db = false := rfl
@[simp] theorem State.raise_lw (c : Cause) : (s.raise c).lw = false := rfl
@[simp] theorem State.raise_k (c : Cause) : (s.raise c).k = 0 := rfl
@[simp] theorem State.raise_idx (c : Cause) : (s.raise c).idx = 0 := rfl
@[simp] theorem State.raise_acc (c : Cause) : (s.raise c).acc = 0 := rfl
@[simp] theorem State.raise_commandPort (c : Cause) : (s.raise c).commandPort = s.commandPort := rfl
@[simp] theorem State.raise_outputPort (c : Cause) : (s.raise c).outputPort = s.outputPort := rfl

/-! ## Clearing the registers -/

@[simp] theorem State.clearRegisters_wMax : s.clearRegisters.wMax = s.wMax := rfl
@[simp] theorem State.clearRegisters_phase : s.clearRegisters.phase = .idle := rfl
@[simp] theorem State.clearRegisters_cause : s.clearRegisters.cause = .none := rfl
@[simp] theorem State.clearRegisters_inWidth : s.clearRegisters.inWidth = 0 := rfl
@[simp] theorem State.clearRegisters_outWidth : s.clearRegisters.outWidth = 0 := rfl
@[simp] theorem State.clearRegisters_inEnd : s.clearRegisters.inEnd = bigUnitBigBit := rfl
@[simp] theorem State.clearRegisters_outEnd : s.clearRegisters.outEnd = bigUnitBigBit := rfl
@[simp] theorem State.clearRegisters_mode : s.clearRegisters.mode = .none := rfl
@[simp] theorem State.clearRegisters_du : s.clearRegisters.du = false := rfl
@[simp] theorem State.clearRegisters_db : s.clearRegisters.db = false := rfl
@[simp] theorem State.clearRegisters_lw : s.clearRegisters.lw = false := rfl
@[simp] theorem State.clearRegisters_k : s.clearRegisters.k = 0 := rfl
@[simp] theorem State.clearRegisters_idx : s.clearRegisters.idx = 0 := rfl
@[simp] theorem State.clearRegisters_acc : s.clearRegisters.acc = 0 := rfl
@[simp] theorem State.clearRegisters_commandPort : s.clearRegisters.commandPort = s.commandPort := rfl
@[simp] theorem State.clearRegisters_outputPort : s.clearRegisters.outputPort = s.outputPort := rfl

/-! ## The caller's sending -/

@[simp] theorem State.send_wMax (ws : List Nat) : (s.send ws).wMax = s.wMax := rfl
@[simp] theorem State.send_phase (ws : List Nat) : (s.send ws).phase = s.phase := rfl
@[simp] theorem State.send_cause (ws : List Nat) : (s.send ws).cause = s.cause := rfl
@[simp] theorem State.send_inWidth (ws : List Nat) : (s.send ws).inWidth = s.inWidth := rfl
@[simp] theorem State.send_outWidth (ws : List Nat) : (s.send ws).outWidth = s.outWidth := rfl
@[simp] theorem State.send_inEnd (ws : List Nat) : (s.send ws).inEnd = s.inEnd := rfl
@[simp] theorem State.send_outEnd (ws : List Nat) : (s.send ws).outEnd = s.outEnd := rfl
@[simp] theorem State.send_mode (ws : List Nat) : (s.send ws).mode = s.mode := rfl
@[simp] theorem State.send_du (ws : List Nat) : (s.send ws).du = s.du := rfl
@[simp] theorem State.send_db (ws : List Nat) : (s.send ws).db = s.db := rfl
@[simp] theorem State.send_lw (ws : List Nat) : (s.send ws).lw = s.lw := rfl
@[simp] theorem State.send_k (ws : List Nat) : (s.send ws).k = s.k := rfl
@[simp] theorem State.send_idx (ws : List Nat) : (s.send ws).idx = s.idx := rfl
@[simp] theorem State.send_acc (ws : List Nat) : (s.send ws).acc = s.acc := rfl
@[simp] theorem State.send_commandPort (ws : List Nat) : (s.send ws).commandPort = s.commandPort ++ ws := rfl
@[simp] theorem State.send_outputPort (ws : List Nat) : (s.send ws).outputPort = s.outputPort := rfl

/-! ## Placing the next command -/

@[simp] theorem State.place_wMax (w : Nat) : (s.place w).wMax = s.wMax := rfl
@[simp] theorem State.place_phase (w : Nat) : (s.place w).phase = s.phase := rfl
@[simp] theorem State.place_cause (w : Nat) : (s.place w).cause = s.cause := rfl
@[simp] theorem State.place_inWidth (w : Nat) : (s.place w).inWidth = s.inWidth := rfl
@[simp] theorem State.place_outWidth (w : Nat) : (s.place w).outWidth = s.outWidth := rfl
@[simp] theorem State.place_inEnd (w : Nat) : (s.place w).inEnd = s.inEnd := rfl
@[simp] theorem State.place_outEnd (w : Nat) : (s.place w).outEnd = s.outEnd := rfl
@[simp] theorem State.place_mode (w : Nat) : (s.place w).mode = s.mode := rfl
@[simp] theorem State.place_du (w : Nat) : (s.place w).du = s.du := rfl
@[simp] theorem State.place_db (w : Nat) : (s.place w).db = s.db := rfl
@[simp] theorem State.place_lw (w : Nat) : (s.place w).lw = s.lw := rfl
@[simp] theorem State.place_k (w : Nat) : (s.place w).k = s.k := rfl
@[simp] theorem State.place_idx (w : Nat) : (s.place w).idx = s.idx := rfl
@[simp] theorem State.place_acc (w : Nat) : (s.place w).acc = s.acc := rfl
@[simp] theorem State.place_commandPort (w : Nat) : (s.place w).commandPort = w :: s.commandPort := rfl
@[simp] theorem State.place_outputPort (w : Nat) : (s.place w).outputPort = s.outputPort := rfl

end Sys2Proof.Machine
end

