-- ==== Sys2Proof/Laws/Ops.lean ====
section
/-! SUPPORT. For each shared operation of the machine, what it can do. -/

namespace Sys2Proof.Machine

/-! ## Starting a call -/

/-- CFG with legal widths (`47_commands.md` R152). -/
theorem configure_of_legal {s : State} {iw ow : Width} (ie oe : Endianness)
    (h : validate s.wMax iw.toNat ow.toNat = .none) :
    s.configure iw ie ow oe =
      { s with
        phase := .run, cause := .none, inWidth := iw, outWidth := ow, inEnd := ie, outEnd := oe,
        mode := (select iw.toNat ow.toNat).1, k := BitVec.ofNat 32 (select iw.toNat ow.toNat).2,
        du := unitOrdersDiffer ie oe, db := bitOrdersDiffer ie oe,
        lw := wideIsLittle (select iw.toNat ow.toNat).1 ie oe, idx := 0, acc := 0 } := by
  simp [State.configure, h]

/-- CFG with widths the dispatcher rejects (`47_commands.md` R152). -/
theorem configure_of_illegal {s : State} {iw ow : Width} (ie oe : Endianness)
    (h : validate s.wMax iw.toNat ow.toNat ≠ .none) :
    s.configure iw ie ow oe =
      { s with
        phase := .err, cause := validate s.wMax iw.toNat ow.toNat,
        inWidth := iw, outWidth := ow, inEnd := ie, outEnd := oe,
        mode := .none, k := 0, du := false, db := false, lw := false, idx := 0, acc := 0 } := by
  simp [State.configure, h, State.raise]

/-- Legal widths are at most `W_MAX`, and the group size is at most `K_MAX` and at most a width (`10_state.md` R15). -/
theorem select_bounds {wMax iw ow : Nat} (h : validate wMax iw ow = .none) :
    iw ≤ wMax ∧ ow ≤ wMax ∧ 1 ≤ (select iw ow).2 ∧ (select iw ow).2 ≤ Config.kMax wMax ∧
      (select iw ow).2 ≤ max iw ow := by
  obtain ⟨-, -, hiw, how, -⟩ := validate_eq_none_iff.mp h
  refine ⟨hiw, how, ?_⟩
  have hdiv : ∀ k n : Nat, 0 < n → k * (8 * n) ≤ wMax → k ≤ Config.kMax wMax := fun k n hn hk =>
    (Nat.le_div_iff_mul_le (by decide)).mpr (Nat.le_trans (Nat.mul_le_mul_left k (show 8 ≤ 8 * n by omega)) hk)
  cases legalShape_of_validate h with
  | eq n hn =>
    rw [select_self]
    exact ⟨le_rfl, hdiv 1 n hn (by omega), by simp; omega⟩
  | imp n k hn hk =>
    rw [select_imp hn hk]
    exact ⟨by omega, hdiv k n hn how, le_max_of_le_right (Nat.le_mul_of_pos_right k (by omega))⟩
  | exp n k hn hk =>
    rw [select_exp hn hk]
    exact ⟨by omega, hdiv k n hn hiw, le_max_of_le_left (Nat.le_mul_of_pos_right k (by omega))⟩

/-- The group size fits the 32 bits of `K` (`10_state.md` R15), whatever `W_MAX` is, since the widths fit theirs. -/
theorem groupSize_toNat {wMax : Nat} {iw ow : Width} (h : validate wMax iw.toNat ow.toNat = .none) :
    (BitVec.ofNat 32 (select iw.toNat ow.toNat).2).toNat = (select iw.toNat ow.toNat).2 := by
  obtain ⟨-, -, -, -, hk⟩ := select_bounds h
  rw [BitVec.toNat_ofNat]
  exact Nat.mod_eq_of_lt (Nat.lt_of_le_of_lt hk (max_lt iw.isLt ow.isLt))

/-! ## Taking a chunk -/

/-- What a PUSH can do before its data path (`47_commands.md` R153). -/
theorem pushTested_cases {arg : Nat} {s t : State} {path : Result} (h : pushTested arg s path = .next t) :
    (s.phase = .err ∧ t = s) ∨
    ((s.phase = .idle ∨ s.phase = .done) ∧ t = s.raise .protocol) ∨
    (s.phase = .run ∧ 2 ^ s.inWidth.toNat ≤ arg ∧ t = s.raise .chunkRange) ∨
    (s.phase = .run ∧ arg < 2 ^ s.inWidth.toNat ∧ path = .next t) := by
  unfold pushTested at h
  split at h
  · exact .inl ⟨‹_›, by injection h with h; exact h.symm⟩
  · exact .inr (.inl ⟨.inl ‹_›, by injection h with h; exact h.symm⟩)
  · exact .inr (.inl ⟨.inr ‹_›, by injection h with h; exact h.symm⟩)
  · split at h
    · rename_i hp hf
      exact .inr (.inr (.inr ⟨hp, by simpa [chunkFits] using hf, h⟩))
    · rename_i hp hf
      exact .inr (.inr (.inl ⟨hp, by simpa [chunkFits] using hf, by injection h with h; exact h.symm⟩))

theorem pushTested_err {arg : Nat} {s : State} {path : Result} (h : s.phase = .err) :
    pushTested arg s path = .next s := by simp [pushTested, h]

theorem pushTested_closed {arg : Nat} {s : State} {path : Result} (h : s.phase = .idle ∨ s.phase = .done) :
    pushTested arg s path = .next (s.raise .protocol) := by
  rcases h with h | h <;> simp [pushTested, h]

theorem pushTested_range {arg : Nat} {s : State} {path : Result} (h : s.phase = .run)
    (hr : 2 ^ s.inWidth.toNat ≤ arg) : pushTested arg s path = .next (s.raise .chunkRange) := by
  simp [pushTested, h, chunkFits, Nat.not_lt.mpr hr]

theorem pushTested_run {arg : Nat} {s : State} {path : Result} (h : s.phase = .run)
    (hr : arg < 2 ^ s.inWidth.toNat) : pushTested arg s path = path := by
  simp [pushTested, h, chunkFits, hr]

/-- What the imploder's data path can do (`47_commands.md` R155). -/
theorem pushImpPath_cases (arg : Nat) (s : State) :
    (s.idx.toNat + 1 = s.k.toNat ∧
      pushImpPath arg s = { s.emit [s.accumulated arg] with acc := 0, idx := 0 }) ∨
    (s.idx.toNat + 1 ≠ s.k.toNat ∧
      pushImpPath arg s = { s with acc := s.accumulated arg, idx := s.idx + 1 }) := by
  unfold pushImpPath
  split
  · exact .inl ⟨‹_›, rfl⟩
  · exact .inr ⟨‹_›, rfl⟩

theorem underControl_cases {c : ControlWord} {s t : State} {path : Result} (h : underControl c s path = .next t) :
    s.controlWord = c ∧ path = .next t := by
  unfold underControl at h
  split at h
  · exact ⟨‹_›, h⟩
  · cases h

/-! ## Values -/

/-- A chunk on the port, and the accumulator, are chunks of the output width (`20_memory.md` R33, `10_state.md` R17). -/
theorem presented_lt (wMax outWidth v : Nat) : presented wMax outWidth v < 2 ^ outWidth :=
  Nat.lt_of_lt_of_le (Nat.mod_lt _ (Nat.two_pow_pos _)) (Nat.pow_le_pow_right (by decide) (Nat.min_le_left ..))

theorem presented_lt_wMax (wMax outWidth v : Nat) : presented wMax outWidth v < 2 ^ wMax :=
  Nat.lt_of_lt_of_le (Nat.mod_lt _ (Nat.two_pow_pos _)) (Nat.pow_le_pow_right (by decide) (Nat.min_le_right ..))

/-- A chunk of the output width keeps its value on the port (`20_memory.md` R33). -/
theorem presented_eq {v w wMax : Nat} (hv : v < 2 ^ w) (hw : w ≤ wMax) : presented wMax w v = v := by
  rw [presented, Nat.min_eq_left hw]
  exact Nat.mod_eq_of_lt hv

theorem presented_map {l : List Nat} {w wMax : Nat} (hl : ∀ v ∈ l, v < 2 ^ w) (hw : w ≤ wMax) :
    l.map (presented wMax w) = l :=
  (List.map_congr_left fun v hv => presented_eq (hl v hv) hw).trans (List.map_id' l)

/-- Of a chunk, the data path has the value of the spec (`41_reversers.md` R84). -/
theorem xformOrFree_eq {v w : Nat} (h : isChunk v w = true) (du db : Bool) :
    xformOrFree v w du db = xform v w du db := by
  simp [xformOrFree, xform?, h]

theorem shiftOrFree_little (i small big : Nat) : shiftOrFree true i small big = i * small := rfl

theorem shiftOrFree_big {i small big : Nat} (h : small + i * small ≤ big) :
    shiftOrFree false i small big = big - (small + i * small) := by
  simp [shiftOrFree, processedBits, h, placeShift]

/-- Of a sub-chunk index of a group the shift is that of the spec (`42_shift_resolver.md` R94). -/
theorem shiftOrFree_eq {i k small : Nat} (lw : Bool) (h : i < k) :
    shiftOrFree lw i small (k * small) = placeShift lw i small (k * small) := by
  have : small + processedBits i small ≤ k * small := by
    rw [processedBits, Nat.add_comm, ← Nat.succ_mul]
    exact Nat.mul_le_mul_right _ h
  simp [shiftOrFree, this]

/-! ## An open call under the invariants of the registers -/

/-- The widths of an open call, by its mode (`10_state.md` R15, R22). -/
inductive OpenCall (s : State) : Prop where
  | eq (n : Nat) : 0 < n → s.mode = .eq → s.inWidth.toNat = 8 * n → s.outWidth.toNat = 8 * n → s.k.toNat = 1 →
      OpenCall s
  | imp (n : Nat) : 0 < n → s.mode = .imp → s.inWidth.toNat = 8 * n → s.outWidth.toNat = s.k.toNat * (8 * n) →
      2 ≤ s.k.toNat → OpenCall s
  | exp (n : Nat) : 0 < n → s.mode = .exp → s.outWidth.toNat = 8 * n → s.inWidth.toNat = s.k.toNat * (8 * n) →
      2 ≤ s.k.toNat → OpenCall s

theorem openCall_of_registersOk {s : State} (h : s.RegistersOk) (hc : s.ControlsOk) (hp : s.configured) :
    OpenCall s := by
  obtain ⟨-, -, h3, -⟩ := h
  have hw := legalShape_of_validate (h3 hp).2.2.2
  obtain ⟨hs, -⟩ := hc hp
  generalize hiw : s.inWidth.toNat = iw, how : s.outWidth.toNat = ow at hw hs
  cases hw with
  | eq n hn =>
    rw [select_self, Prod.mk.injEq] at hs
    exact .eq n hn hs.1.symm hiw how hs.2.symm
  | imp n k hn hk =>
    rw [select_imp hn hk, Prod.mk.injEq] at hs
    exact .imp n hn hs.1.symm hiw (hs.2 ▸ how) (hs.2 ▸ hk)
  | exp n k hn hk =>
    rw [select_exp hn hk, Prod.mk.injEq] at hs
    exact .exp n hn hs.1.symm how (hs.2 ▸ hiw) (hs.2 ▸ hk)

theorem outWidth_le_wMax {s : State} (h : s.RegistersOk) (hp : s.configured) : s.outWidth.toNat ≤ s.wMax :=
  (validate_eq_none_iff.mp (h.2.2.1 hp).2.2.2).2.2.2.1

/-- The accumulator is the imploder's (`43_imploder.md` R101), and loses nothing: the placed chunk ends below
`OUT_WIDTH` (`47_commands.md` R155). -/
theorem accumulated_eq {s : State} {arg : Nat} (h : s.RegistersOk) (hc : s.ControlsOk) (hp : s.phase = .run)
    (hm : s.mode = .imp) (hf : arg < 2 ^ s.inWidth.toNat) :
    s.accumulated arg = implodeStep s.lw s.du s.db s.inWidth.toNat s.outWidth.toNat s.idx.toNat s.acc arg := by
  have hle := outWidth_le_wMax h (.inl hp)
  have hacc := h.2.2.2.2.2 hm
  have hidx := h.2.2.2.1.1 hp
  cases openCall_of_registersOk h hc (.inl hp) with
  | eq _ _ hm' => exact absurd (hm.symm.trans hm') (by decide)
  | exp _ _ hm' => exact absurd (hm.symm.trans hm') (by decide)
  | imp n hn _ hiw how _ =>
    rw [State.accumulated, implodeStep]
    rw [hiw] at hf
    rw [how] at hle hacc
    rw [hiw, how, shiftOrFree_eq _ hidx, xformOrFree_eq (by simp [isChunk, isChunkWidth, hn, hf])]
    have := implodeFrom_lt (lw := s.lw) (du := s.du) (db := s.db) (n := n) (k := s.k.toNat) [arg]
      (i := s.idx.toNat) (acc := s.acc) (by simpa using hidx) (by simpa using hf) hacc
    exact presented_eq (by simpa [implodeFrom, implodeStep] using this) hle

/-- The burst of the exploder (`44_exploder.md` R111, `47_commands.md` R156). -/
theorem exploded_eq {s : State} (arg : Nat) (h : s.RegistersOk) (hc : s.ControlsOk) (hp : s.phase = .run)
    (hm : s.mode = .exp) :
    (List.range s.k.toNat).map (s.exploded arg) =
      explodeBurst s.lw s.du s.db s.inWidth.toNat s.outWidth.toNat s.k.toNat arg := by
  cases openCall_of_registersOk h hc (.inl hp) with
  | eq _ _ hm' => exact absurd (hm.symm.trans hm') (by decide)
  | imp _ _ hm' => exact absurd (hm.symm.trans hm') (by decide)
  | exp n hn _ how hiw _ =>
    refine List.map_congr_left fun i hi => ?_
    rw [State.exploded, explodePiece, how, hiw, shiftOrFree_eq _ (List.mem_range.mp hi)]
    refine xformOrFree_eq ?_ _ _
    have : ∀ v, v &&& mask (8 * n) < 2 ^ (8 * n) := fun v => by rw [land_mask]; exact Nat.mod_lt _ (Nat.two_pow_pos _)
    simp [isChunk, isChunkWidth, hn, this]

end Sys2Proof.Machine
end

