-- ==== Sys2Proof/Laws/PerInstr.lean ====
section
/-! SUPPORT. The family TableMatch: what the encoder writes for an instruction has the fixed bits of its row of
`spec/opcode_table.json`, in every instance. -/

namespace Sys2Proof.Laws.TableMatch

/-- A row's fixed bits in a command word. The rows of the table fix bits of the opcode only, the top hexadecimal digit
of their mask and match. -/
def opHasBits (wMax : Nat) (w : Nat) (mask value : BitVec 4) : Prop := opField wMax w &&& mask = value

/-- A row's fixed bits in a control word. -/
def controlHasBits (c mask value : ControlWord) : Prop := c &&& mask = value

/-- The row of `spec/opcode_table.json` an instruction belongs to, by mask and match. -/
def Statement (i : Instr) : Prop :=
  ∀ wMax : Nat,
    match i, encode wMax i with
    | .rst, .command w => opHasBits wMax w 0xf 0x0
    | .cfg _ _ _ _, .command w => opHasBits wMax w 0xf 0x1
    | .push _, .command w => opHasBits wMax w 0xf 0x2
    | .endStream, .command w => opHasBits wMax w 0xf 0x3
    | .reserved47 _, .command w => opHasBits wMax w 0xc 0x4
    | .reserved8F _, .command w => opHasBits wMax w 0x8 0x8
    | .pushEq _ _ _, .control c _ => controlHasBits c 0x19 0x08
    | .pushImp _ _ _ _, .control c _ => controlHasBits c 0x18 0x10
    | .pushExp _ _ _ _, .control c _ => controlHasBits c 0x18 0x18
    | _, _ => False

theorem opHasBits_commandWord {wMax : Nat} {op m v : BitVec 4} (arg : Nat) (h : op &&& m = v) :
    opHasBits wMax (commandWord wMax op arg) m v := by
  rw [opHasBits, opField_commandWord, h]

theorem rst : Statement .rst := fun _ => opHasBits_commandWord (op := 0x0#4) 0 rfl

theorem cfg (iw : Width) (ie : Endianness) (ow : Width) (oe : Endianness) : Statement (.cfg iw ie ow oe) :=
  fun _ => opHasBits_commandWord (op := 0x1#4) (cfgArg iw ie ow oe) rfl

theorem push (arg : Nat) : Statement (.push arg) := fun _ => opHasBits_commandWord (op := 0x2#4) arg rfl

theorem endStream : Statement .endStream := fun _ => opHasBits_commandWord (op := 0x3#4) 0 rfl

theorem reserved47 (opLow : BitVec 2) : Statement (.reserved47 opLow) :=
  fun _ => opHasBits_commandWord (op := 0b01#2 ++ opLow) 0 (by revert opLow; decide)

theorem reserved8F (opLow : BitVec 3) : Statement (.reserved8F opLow) :=
  fun _ => opHasBits_commandWord (op := 1#1 ++ opLow) 0 (by revert opLow; decide)

theorem pushEq (du db : Bool) (arg : Nat) : Statement (.pushEq du db arg) := fun _ => by
  cases du <;> cases db <;> rfl

theorem pushImp (du db lw : Bool) (arg : Nat) : Statement (.pushImp du db lw arg) := fun _ => by
  cases du <;> cases db <;> cases lw <;> rfl

theorem pushExp (du db lw : Bool) (arg : Nat) : Statement (.pushExp du db lw arg) := fun _ => by
  cases du <;> cases db <;> cases lw <;> rfl

end Sys2Proof.Laws.TableMatch
end

