-- ==== Sys2Proof/Tests/Slice0.lean ====
section
/-! SUPPORT. Tests: the ill-formed terms WellFormed refuses, the words of `30_encoding.md` section 6 decoded, the vectors
of `95_test_vectors.md` (level 1, then one step at a time), the table rows as they are fetched, and for each statement
with hypotheses a state and operands that meet them. Expected values stand in the spec. -/

namespace Sys2Proof.Tests

open Sys2Proof Sys2Proof.Machine

/-! ## WellFormed (`30_encoding.md` R54, R60) -/

theorem test_ill_formed_push : (Instr.push 0x10000000000000000).wellFormed = false := by decide
theorem test_ill_formed_pushEq : (Instr.pushEq false false 0x10000000000000000).wellFormed = false := by decide
theorem test_ill_formed_pushImp : (Instr.pushImp true false true 0x80000000000000000).wellFormed = false := by decide
theorem test_ill_formed_pushExp : (Instr.pushExp true true true 0xfffffffffffffffff).wellFormed = false := by decide

theorem test_ill_formed_for_the_input_width :
    (Instr.push 0x1ff).wellFormedFor 8 = false ∧ (Instr.push 0xff).wellFormedFor 8 = true := by decide

theorem test_well_formed_cfg_of_rejected_widths :
    (Instr.cfg 0 bigUnitBigBit 7 bigUnitBigBit).wellFormed = true := by decide

theorem test_well_formed_reserved : (Instr.reserved47 3).wellFormed = true := by decide

/-! ## Decode (`30_encoding.md` section 6, R52, R56, R58, R60) -/

theorem test_decode_rst : decode 64 0x000000000000000000 = .rst := by decide
theorem test_decode_rst_ignores_arg : decode 64 0x0fffffffffffffffff = .rst := by decide
theorem test_decode_end : decode 64 0x300000000000000000 = .endStream := by decide
theorem test_decode_end_ignores_arg : decode 64 0x3a5a5a5a5a5a5a5a5a = .endStream := by decide

theorem test_decode_cfg :
    decode 64 0x100000004000000010 = .cfg 16 bigUnitBigBit 64 bigUnitBigBit ∧
    decode 64 0x110000002000000010 = .cfg 16 littleUnitBigBit 32 bigUnitBigBit ∧
    decode 64 0x120000001000000008 = .cfg 8 bigUnitLittleBit 16 bigUnitBigBit ∧
    decode 64 0x130000000800000020 = .cfg 32 littleUnitLittleBit 8 bigUnitBigBit ∧
    decode 64 0x1C0000002000000020 = .cfg 32 bigUnitBigBit 32 littleUnitLittleBit ∧
    decode 64 0x100000001000000018 = .cfg 24 bigUnitBigBit 16 bigUnitBigBit := by decide

theorem test_decode_push :
    decode 64 0x200000000000001234 = .push 0x1234 ∧
    decode 64 0x201234567890abcdef = .push 0x1234567890abcdef := by decide

theorem test_decode_reserved :
    decode 64 0x400000000000000000 = .reserved47 0 ∧ decode 64 0x7fffffffffffffffff = .reserved47 3 ∧
    decode 64 0xa00000000000000005 = .reserved8F 2 ∧ decode 64 0xf00000000000000000 = .reserved8F 7 := by decide

theorem test_decode_control :
    decodeControl 0b01010#5 7 = .ok (.pushEq false true 7) ∧
    decodeControl 0b10100#5 7 = .ok (.pushImp true false false 7) ∧
    decodeControl 0b11111#5 7 = .ok (.pushExp true true true 7) := by decide

theorem test_decode_control_refuses :
    decodeControl 0b00000#5 7 = .error .noAlgorithm ∧ decodeControl 0b00100#5 7 = .error .neverOccurs ∧
    decodeControl 0b01001#5 7 = .error .neverOccurs := by decide

theorem test_decode_encoding_refuses_a_control_word_without_a_push :
    decodeEncoding 64 (.control 0b10000#5 0x300000000000000000) = .error .notAPush := by decide

theorem test_encode_cfg :
    encode 64 (.cfg 32 bigUnitBigBit 32 littleUnitLittleBit) = .command 0x1C0000002000000020 := by decide

theorem test_encode_pushExp :
    encode 64 (.pushExp true false true 0x12) = .control 0b11101#5 0x200000000000000012 := by decide

theorem test_table_words :
    decodeTableWord 72 0x110000002000000010 = some (.cfg 16 littleUnitBigBit 32 bigUnitBigBit) ∧
    decodeTableWord 8 0b01110 = some (.pushEq true true 0) ∧
    decodeTableWord 8 0b00000 = none ∧ decodeTableWord 8 0b101110 = none ∧
    decodeTableWord 72 (2 ^ 72) = none ∧ decodeTableWord 16 0 = none := by decide

/-- A `W_MAX` above 68 (`00_scope.md` R7, `30_encoding.md` R53): 132-bit words, operand bits of CFG from 68 up ignored. -/
theorem test_decode_of_a_wider_instance :
    Config.cwBits 128 = 132 ∧ Config.kMax 128 = 16 ∧
    decode 128 0x2000102030405060708090a0b0c0d0e0f = .push 0x000102030405060708090a0b0c0d0e0f ∧
    decode 128 0x1fffffffffffffff00000008000000080 = .cfg 128 bigUnitBigBit 128 bigUnitBigBit ∧
    decode 128 0x1000000000000000d0000008000000010 = .cfg 16 littleUnitBigBit 128 littleUnitLittleBit ∧
    encode 128 .endStream = .command 0x300000000000000000000000000000000 := by decide

/-! ## Text syntax (`30_encoding.md` R62, R63) -/

theorem test_read_push : readLine? 64 "PUSH 0x1234 ; a chunk".toList = some [.push 0x1234] := by decide

theorem test_read_cfg :
    readLine? 64 "CFG  16, little_unit_big_bit, 32, 0".toList =
      some [.cfg 16 littleUnitBigBit 32 bigUnitBigBit] := by decide

theorem test_read_pack :
    readLine? 64 "PACK [0x12, 0x34], 8, big_unit_big_bit, 16, big_unit_big_bit".toList =
      some [.cfg 8 bigUnitBigBit 16 bigUnitBigBit, .push 0x12, .push 0x34, .endStream] := by decide

theorem test_read_refuses :
    readLine? 64 "push 0x1".toList = none ∧ readLine? 64 "PUSH 12".toList = none ∧
    readLine? 64 "CFG 4294967296, 0, 8, 0".toList = none := by decide

theorem test_print_cfg :
    instrText (.cfg 32 littleUnitLittleBit 8 bigUnitBigBit) =
      some "CFG 32, little_unit_little_bit, 8, big_unit_big_bit" := by decide

/-! ## The reference functions (`95_test_vectors.md` sections 1 to 7) -/

/-- The rows of the table of `95_test_vectors.md` section 3, the entry of column 0 as the least significant unit. -/
def bitrevRows : List Nat := [
  0xf070b030d0509010e060a020c0408000, 0xf878b838d8589818e868a828c8488808,
  0xf474b434d4549414e464a424c4448404, 0xfc7cbc3cdc5c9c1cec6cac2ccc4c8c0c,
  0xf272b232d2529212e262a222c2428202, 0xfa7aba3ada5a9a1aea6aaa2aca4a8a0a,
  0xf676b636d6569616e666a626c6468606, 0xfe7ebe3ede5e9e1eee6eae2ece4e8e0e,
  0xf171b131d1519111e161a121c1418101, 0xf979b939d9599919e969a929c9498909,
  0xf575b535d5559515e565a525c5458505, 0xfd7dbd3ddd5d9d1ded6dad2dcd4d8d0d,
  0xf373b333d3539313e363a323c3438303, 0xfb7bbb3bdb5b9b1beb6bab2bcb4b8b0b,
  0xf777b737d7579717e767a727c7478707, 0xff7fbf3fdf5f9f1fef6faf2fcf4f8f0f]

theorem test_bitrev_table :
    ∀ r < 16, ∀ c < 16, bitrevUnit (16 * r + c) = unitOf (bitrevRows.getD r 0) c := by decide

theorem test_revUnits :
    revUnits? 0x1234 16 = some 0x3412 ∧ revUnits? 0x123456 24 = some 0x563412 ∧
    revUnits? 0x0123456789abcdef 64 = some 0xefcdab8967452301 ∧ revUnits? 0x10000 16 = none := by decide

theorem test_revBits :
    revBits? 0x1234 16 = some 0x482c ∧ revBits? 0x123456 24 = some 0x482c6a ∧
    revBits? 0x8000 16 = some 0x0100 ∧ revBits? 1 12 = none := by decide

theorem test_xform_both : xform? 0x123456 24 true true = some 0x6a2c48 := by decide

theorem test_shifts :
    (List.range 4).map (placeShift false · 16 64) = [48, 32, 16, 0] ∧
    (List.range 4).map (placeShift true · 16 64) = [0, 16, 32, 48] ∧
    shiftImp? 1 16 64 bigUnitLittleBit = some 32 ∧ shiftImp? 1 16 64 littleUnitLittleBit = some 16 ∧
    shiftImp? 4 16 64 bigUnitBigBit = none := by decide

theorem test_scenario_S1 :
    pack 64 [0x1234, 0x5678, 0x90ab, 0xcdef] 16 bigUnitBigBit 64 bigUnitBigBit = .ok [0x1234567890abcdef] := by
  decide

theorem test_scenario_S2 :
    pack 64 [0x1234, 0x5678] 16 littleUnitBigBit 32 bigUnitBigBit = .ok [0x34127856] := by decide

theorem test_scenario_S3 :
    pack 64 [0x12, 0x34, 0x56, 0x78] 8 bigUnitLittleBit 16 bigUnitBigBit = .ok [0x482c, 0x6a1e] := by decide

theorem test_scenario_S4 : pack 64 [0x123456] 24 bigUnitBigBit 16 bigUnitBigBit = .err .cfgNotDivisible := by decide

theorem test_scenario_S5 :
    pack 64 [1, 2, 3, 4, 5] 8 bigUnitBigBit 32 bigUnitBigBit = .err .incompleteGroup := by decide

theorem test_implode_step_by_step :
    pack 64 [0x1234, 0x5678] 16 littleUnitBigBit 32 littleUnitLittleBit = .ok [0x6a1e482c] := by decide

theorem test_explode :
    pack 64 [0x12345678] 32 littleUnitBigBit 8 bigUnitLittleBit = .ok [0x1e, 0x6a, 0x2c, 0x48] ∧
    pack 64 [0x12345678] 32 bigUnitBigBit 16 littleUnitBigBit = .ok [0x3412, 0x7856] := by decide

theorem test_widest_instance_is_an_argument :
    validate 64 128 128 = .cfgWidthTooLarge ∧ validate 128 128 128 = .none := by decide

/-! ## One step (`95_test_vectors.md` section 10) -/

/-- The next state, where there is one. -/
def nextOf : Result → Option State
  | .next s => some s
  | .fault _ => none
  | .refused _ => none

/-- A call just opened. -/
def opened (iw : Width) (ie : Endianness) (ow : Width) (oe : Endianness) : State :=
  State.reset.configure iw ie ow oe

/-- The status word and the chunks emitted by one command from `s`, on which nothing had been emitted. -/
def observed (s : State) (w : Nat) : Option (StatusWord × List Nat) :=
  (nextOf (step (s.place w))).map fun t => (t.statusWord, t.outputPort)

/-- The call of Program 1, after one chunk. -/
def midGroup : State := { opened 16 bigUnitBigBit 64 bigUnitBigBit with idx := 1, acc := 0x1234000000000000 }

theorem test_rst_from_run : nextOf (step (midGroup.place 0)) = some State.reset := by decide

theorem test_rst_from_err : nextOf (exec .rst (midGroup.raise .protocol)) = some State.reset := by decide

theorem test_cfg_program1 :
    observed State.reset 0x100000004000000010 = some (0x000000040081#48, []) := by decide

theorem test_cfg_program5_rejected :
    observed (midGroup.raise .protocol) 0x100000001000000018 = some (0x00000000000b#48, []) := by decide

theorem test_push_program1 :
    nextOf (step (midGroup.place 0x200000000000005678)) =
      some { midGroup with idx := 2, acc := 0x1234567800000000 } := by decide

theorem test_push_program5_range :
    observed (opened 8 bigUnitBigBit 8 bigUnitLittleBit) 0x2000000000000001ff =
      some (0x00000000001b#48, []) := by decide

theorem test_end_program3 :
    observed (opened 16 littleUnitBigBit 32 bigUnitLittleBit) 0x300000000000000000 =
      some (0x000000020382#48, []) := by decide

theorem test_end_program4 : observed midGroup 0x300000000000000000 = some (0x000000000017#48, []) := by decide

theorem test_reserved47_in_run : observed midGroup 0x400000000000000000 = some (0x000000000023#48, []) := by decide

theorem test_reserved47_in_err :
    observed (midGroup.raise .protocol) 0x7fffffffffffffffff = some (0x00000000001f#48, []) := by decide

theorem test_reserved8F_program5 :
    observed (opened 8 bigUnitBigBit 8 bigUnitLittleBit) 0xf00000000000000000 =
      some (0x000000000023#48, []) := by decide

theorem test_reserved8F_in_err :
    observed (midGroup.raise .chunkRange) 0xa00000000000000005 = some (0x00000000001b#48, []) := by decide

theorem test_pushEq :
    (nextOf (exec (.pushEq false true 0x12) (opened 8 bigUnitBigBit 8 bigUnitLittleBit))).map State.outputPort =
      some [0x48] := by decide

theorem test_pushEq_in_done :
    (nextOf (exec (.pushEq false true 0x12) { midGroup with phase := .done })).map State.statusWord =
      some 0x00000000001f#48 := by decide

theorem test_pushImp_program5 :
    (nextOf (exec (.pushImp true false false 0x5678)
        { opened 16 littleUnitBigBit 32 bigUnitBigBit with idx := 1, acc := 0x34120000 })) =
      some { opened 16 littleUnitBigBit 32 bigUnitBigBit with outputPort := [0x34127856] } := by decide

theorem test_pushExp_program2 :
    (nextOf (exec (.pushExp true true true 0x12345678)
        (opened 32 littleUnitLittleBit 8 bigUnitBigBit))).map State.outputPort =
      some [0x1e, 0x6a, 0x2c, 0x48] := by decide

/-- A machine of `W_MAX = 128` (`00_scope.md` R6, `46_dispatcher.md` R131): the width 128 is legal there and not at 64. -/
theorem test_a_wider_instance :
    ((nextOf (step ((State.resetAt 128).place 0x100000000000000000000008000000040))).map fun t =>
      (t.phase, t.mode, t.k)) = some (.run, .imp, 2) ∧
    (nextOf (exec (.push 0x0102030405060708090a0b0c0d0e0f10)
        ((State.resetAt 128).configure 128 bigUnitBigBit 128 littleUnitBigBit))).map State.outputPort =
      some [0x100f0e0d0c0b0a090807060504030201] ∧
    (nextOf (exec (.cfg 64 bigUnitBigBit 128 bigUnitBigBit) State.reset)).map State.cause =
      some .cfgWidthTooLarge := by decide

/-- Registers in phase RUN that satisfy `10_state.md` R22, with any mode and group size for their widths. -/
def offControls (m : Mode) (iw ow : Width) (k : BitVec 32) : State :=
  { State.reset with phase := .run, mode := m, inWidth := iw, outWidth := ow, k := k }

/-- R154 at the input width, and the port with the chunk in `OUT_WIDTH` bits (`20_memory.md` R33). -/
theorem test_pushEq_off_controls :
    (nextOf (exec (.push 0x12) { offControls .eq 8 16 1 with db := true })).map State.outputPort = some [0x48] ∧
    (nextOf (exec (.push 0x1234) (offControls .eq 16 8 1))).map State.outputPort = some [0x34] := by decide

/-- R155 and R156 with another `K` than the ratio of the widths, and a next state where a shift goes below zero. -/
theorem test_push_off_controls :
    (nextOf (exec (.push 0x1234) (offControls .imp 16 64 1))).map State.outputPort = some [0x1234000000000000] ∧
    (nextOf (exec (.push 0x1234) { offControls .exp 16 8 1 with lw := true })).map State.outputPort = some [0x34] ∧
    (nextOf (exec (.push 0x1234) (offControls .imp 16 8 2))).isSome ∧
    (nextOf (exec (.push 0x1234) (offControls .exp 16 8 3))).isSome := by decide

theorem test_completedPrefix : completedPrefix [1, 2, 3, 4, 0x1ff, 6] 8 24 = [1, 2, 3] := by decide

/-! ## Table rows, fetched first after reset -/

theorem test_fetch_command_rows :
    ((nextOf (step (State.reset.withFetchWord 72 0x000000000000000000))).map State.statusWord = some 0) ∧
    ((nextOf (step (State.reset.withFetchWord 72 0x200000000000000000))).map State.statusWord = some 0x1f) ∧
    ((nextOf (step (State.reset.withFetchWord 72 0x900000000000000000))).map State.statusWord = some 0x23) := by
  decide

theorem test_fetch_control_rows :
    (∀ u b : Bool, (nextOf (step (State.reset.withFetchWord 8 (controlWordOf 1 u b false).toNat))).map
      State.outputPort = some [0]) ∧
    (∀ u b l : Bool, (nextOf (step (State.reset.withFetchWord 8 (controlWordOf 2 u b l).toNat))).map
      State.idx = some 1) ∧
    (∀ u b l : Bool, (nextOf (step (State.reset.withFetchWord 8 (controlWordOf 3 u b l).toNat))).map
      State.outputPort = some [0, 0]) := by decide

/-! ## A state and operands for the hypotheses of each statement, at the boundaries of its clauses -/

/-- The invariant as it is evaluated, clause by clause. -/
def invHolds (s : State) : Bool :=
  decide s.RegistersOk && decide s.ControlsOk && decide s.PendingWindowsZero && decide s.ParameterOk

theorem inv_of_invHolds {s : State} (h : invHolds s = true) : s.Inv := by
  simp only [invHolds, Bool.and_eq_true] at h
  obtain ⟨⟨⟨h1, h2⟩, h3⟩, h4⟩ := h
  exact ⟨of_decide_eq_true h1, of_decide_eq_true h2, of_decide_eq_true h3, of_decide_eq_true h4⟩

theorem witness_DecodeOfEncodeIsIdentity :
    (Instr.push (2 ^ 68 - 1)).encodable 64 = true ∧ (Instr.push (2 ^ 68)).encodable 64 = false ∧
    (Instr.pushExp true false true (2 ^ 128 - 1)).encodable 128 = true ∧
    (Instr.cfg 0 bigUnitBigBit 7 bigUnitBigBit).encodable 8 = true := by decide

/-- The words of a CFG with its ignored bits set and without, of a PUSH and of another command. -/
theorem witness_EncodeOfDecodeRestoresTheWord :
    0x1fffffffffffffff00000008000000080 < 2 ^ Config.cwBits 128 ∧ 0x110000002000000010 < 2 ^ Config.cwBits 64 ∧
    0x2fffffffffffffffff < 2 ^ Config.cwBits 64 ∧ 0xffffffffffffffffff < 2 ^ Config.cwBits 64 := by decide

/-- The clauses of `OpcodeMapAndFields` at their boundaries. -/
theorem witness_OpcodeMapAndFields :
    ∀ op < 16, op * 2 ^ Config.argBits 64 < 2 ^ Config.cwBits 64 ∧
      (op * 2 ^ Config.argBits 64 + (2 ^ 68 - 1)) / 2 ^ Config.argBits 64 = op := by decide

/-- The clauses of `UnitReverserPlacesUnits` and `BitReverserWorksPerUnit`: a general chunk, one unit, zero, all ones. -/
theorem witness_ReverserClauses :
    isChunk 0x123456 24 = true ∧ 0 < 24 / 8 ∧ isChunk 0x12 8 = true ∧ isChunk 0 24 = true ∧
    isChunk (2 ^ 24 - 1) 24 = true := by decide

theorem witness_BitReversalOfOneUnit : (0 : Nat) < 256 ∧ (255 : Nat) < 256 ∧ (7 : Nat) < 8 := by decide

theorem witness_ReverserLaws : isChunkWidth 24 = true ∧ 0xffffff < 2 ^ 24 ∧ 23 < 24 := by decide

theorem witness_XformSelectsAndUndoesItself : isChunk 0x123456 24 = true ∧ isChunk 0xff 8 = true := by decide

theorem witness_ShiftArithmetic :
    isRatio 16 64 = true ∧ 3 < 64 / 16 ∧ 63 < 64 ∧ isRatio 24 24 = true ∧ 24 / 24 = 1 := by decide

theorem witness_ShiftFollowsWideUnitOrder :
    isRatio 16 64 = true ∧ 0 < 64 / 16 ∧ 3 < 64 / 16 ∧ isRatio 24 24 = true ∧ 0 < 24 / 24 := by decide

/-- For `ImplodeGroupIsSum` and `ImplodeGroupConcatenates`. -/
theorem witness_ImplodeGroup :
    isRatio 16 32 = true ∧ [0x1234, 0xffff].length = 32 / 16 ∧ ∀ x ∈ [0x1234, 0xffff], x < 2 ^ 16 := by decide

theorem witness_ExplodeChunkSplits :
    isRatio 8 24 = true ∧ [0x12, 0xff, 0].length = 24 / 8 ∧ ∀ x ∈ [0x12, 0xff, 0], x < 2 ^ 8 := by decide

theorem witness_ImplodeExplodeInverse :
    isRatio 16 32 = true ∧ [0x1234, 0xffff].length = 32 / 16 ∧ (∀ x ∈ [0x1234, 0xffff], x < 2 ^ 16) ∧
    0xffffffff < 2 ^ 32 := by decide

theorem witness_EqualWidthFormulasAgree : isChunk 0xffffff 24 = true := by decide

/-- The five outcomes of `ValidateOutcomes`. -/
theorem witness_ValidateOutcomes :
    validate 64 0 8 = .cfgZeroWidth ∧ validate 64 8 12 = .cfgWidthNotUnitMultiple ∧
    validate 64 8 72 = .cfgWidthTooLarge ∧ validate 64 24 16 = .cfgNotDivisible ∧ validate 64 64 8 = .none := by
  decide

/-- The three cases of `SelectOutcomes`. -/
theorem witness_SelectOutcomes :
    select? 64 24 24 = some (.eq, 1) ∧ select? 64 8 64 = some (.imp, 8) ∧ select? 64 64 8 = some (.exp, 8) := by decide

/-- The four clauses of `PackOutcomes`. -/
theorem witness_PackOutcomes :
    validate 64 24 16 ≠ .none ∧
    (validate 64 8 16 = .none ∧ ∃ x ∈ [1, 256], 2 ^ 8 ≤ x) ∧
    (validate 64 8 16 = .none ∧ (∀ x ∈ [1, 2, 255], x < 2 ^ 8) ∧ 8 < 16 ∧ [1, 2, 255].length % (16 / 8) ≠ 0) ∧
    (validate 64 8 16 = .none ∧ validStream [1, 255] 8 16 = true) ∧ validStream [] 8 16 = true := by decide

/-- For `PackConservesWidth`, `PackRoundTrip` and `PackKeepsReferenceUnits`. -/
theorem witness_PackOk :
    pack 64 [0x1234, 0x5678] 16 littleUnitBigBit 32 bigUnitBigBit = .ok [0x34127856] := by decide

theorem witness_PackIdentity : validate 64 64 64 = .none ∧ ∀ x ∈ [0, 2 ^ 64 - 1], x < 2 ^ 64 := by decide

theorem witness_PackReferenceFormOnlyRegroups :
    pack 64 [0x12345678] 32 bigUnitBigBit 8 bigUnitBigBit = .ok [0x12, 0x34, 0x56, 0x78] := by decide

theorem witness_PackSameEndiannessOnlyRegroups :
    pack 64 [0x12, 0x34] 8 littleUnitLittleBit 16 littleUnitLittleBit = .ok [0x3412] ∧
    pack 64 [0x12, 0x34] 8 bigUnitLittleBit 16 bigUnitLittleBit = .ok [0x1234] := by decide

theorem witness_PackPermutesBits :
    validate 64 16 32 = .none ∧ 2 * 16 = 1 * 32 ∧ 0 < 1 ∧ 31 < 32 ∧ [0x1234, 0x5678].length = 2 ∧
    pack 64 [0x1234, 0x5678] 16 littleUnitBigBit 32 bigUnitLittleBit = .ok [0x2c481e6a] := by decide

theorem witness_PackIsLocal :
    validate 64 8 16 = .none ∧
    List.Forall₂ (fun p o => pack 64 p 8 bigUnitBigBit 16 littleUnitBigBit = .ok o)
      [[0x12, 0x34], [], [1, 2, 3, 4]] [[0x3412], [], [0x201, 0x403]] := by
  exact ⟨by decide, .cons (by decide) (.cons (by decide) (.cons (by decide) .nil))⟩

theorem witness_PackComposes :
    validate 64 8 32 = .none ∧ validStream [0x12, 0x34, 0x56, 0x78] 8 32 = true ∧
    pack 64 [0x12, 0x34, 0x56, 0x78] 8 bigUnitBigBit 16 littleUnitBigBit = .ok [0x3412, 0x7856] ∧
    pack 64 [0x3412, 0x7856] 16 littleUnitBigBit 32 bigUnitBigBit = .ok [0x12345678] := by decide

theorem witness_StepRunsTheDecodedCommand :
    (State.reset.place 0x200000000000001234).commandPort = 0x200000000000001234 :: [] := by decide

theorem witness_NothingHappensWithoutACommand : State.reset.commandPort = [] ∧ midGroup.commandPort = [] := by decide

theorem witness_CfgAcceptedStartsACall :
    validate State.reset.wMax (24 : Width).toNat (24 : Width).toNat = .none ∧
    validate State.reset.wMax (8 : Width).toNat (64 : Width).toNat = .none ∧
    validate (State.resetAt 128).wMax (128 : Width).toNat (8 : Width).toNat = .none := by decide

theorem witness_CfgRejectedEntersErr :
    validate State.reset.wMax (24 : Width).toNat (16 : Width).toNat ≠ .none ∧
    validate (State.resetAt 128).wMax (0 : Width).toNat (16 : Width).toNat ≠ .none := by decide

theorem witness_CfgForgetsThePast :
    State.reset.wMax = midGroup.wMax ∧ State.reset.commandPort = midGroup.commandPort ∧
    State.reset.outputPort = midGroup.outputPort ∧ State.reset ≠ midGroup := by decide

/-- The phases of `PushTurnedAway`, and an operand on the edge of CHUNK_RANGE. -/
theorem witness_PushTurnedAway :
    (midGroup.raise .protocol).phase = .err ∧ State.reset.phase = .idle ∧
    ({ midGroup with phase := .done } : State).phase = .done ∧
    midGroup.phase = .run ∧ 2 ^ midGroup.inWidth.toNat ≤ 0x10000 := by decide

theorem witness_PushEqEmitsOneChunk :
    let s := opened 64 bigUnitBigBit 64 littleUnitLittleBit
    s.Inv ∧ s.phase = .run ∧ s.mode = .eq ∧ 0xffffffffffffffff < 2 ^ s.inWidth.toNat :=
  ⟨inv_of_invHolds (by decide), by decide⟩

/-- A chunk inside a group. -/
theorem witness_PushImpAccumulates_inside :
    midGroup.Inv ∧ midGroup.phase = .run ∧ midGroup.mode = .imp ∧
    0xffff < 2 ^ midGroup.inWidth.toNat ∧ midGroup.idx.toNat + 1 ≠ midGroup.k.toNat :=
  ⟨inv_of_invHolds (by decide), by decide⟩

/-- The last chunk of a group. -/
theorem witness_PushImpAccumulates_last :
    let s : State := { opened 8 littleUnitBigBit 16 littleUnitBigBit with idx := 1, acc := 0x12 }
    s.Inv ∧ s.phase = .run ∧ s.mode = .imp ∧ 0xff < 2 ^ s.inWidth.toNat ∧
      s.idx.toNat + 1 = s.k.toNat :=
  ⟨inv_of_invHolds (by decide), by decide⟩

theorem witness_PushExpEmitsKChunks :
    let s := opened 64 littleUnitBigBit 8 bigUnitLittleBit
    s.Inv ∧ s.phase = .run ∧ s.mode = .exp ∧ 0xffffffffffffffff < 2 ^ s.inWidth.toNat :=
  ⟨inv_of_invHolds (by decide), by decide⟩

theorem witness_ControlWordSelectsThePush :
    decodeControl midGroup.controlWord 0x5678 = .ok (.pushImp false false false 0x5678) ∧
    decodeControl (opened 8 bigUnitBigBit 8 bigUnitLittleBit).controlWord 1 = .ok (.pushEq false true 1) ∧
    decodeControl (opened 32 littleUnitLittleBit 8 bigUnitBigBit).controlWord 1 =
      .ok (.pushExp true true true 1) := by decide

/-- The clauses of `ControlRowStopsUnderAnotherControlWord`. -/
theorem witness_ControlRowStopsUnderAnotherControlWord :
    midGroup.Inv ∧ midGroup.phase = .run ∧ 1 < 2 ^ midGroup.inWidth.toNat ∧
    midGroup.controlWord ≠ controlWordOf 1 false false false ∧
    midGroup.controlWord ≠ controlWordOf 2 true false false ∧
    midGroup.controlWord ≠ controlWordOf 3 false false false :=
  ⟨inv_of_invHolds (by decide), by decide⟩

/-- The modes of `PushFollowsItsRegisters`, in registers that satisfy R22 and break R14 or R15, with a shift that does
not go below zero and one that does. -/
theorem witness_PushFollowsItsRegisters :
    (offControls .eq 8 16 1).RegistersOk ∧ ¬(offControls .eq 8 16 1).ControlsOk ∧
    (offControls .imp 16 64 3).RegistersOk ∧ ¬(offControls .imp 16 64 3).ControlsOk ∧
    (offControls .imp 16 8 2).RegistersOk ∧ (offControls .exp 16 8 3).RegistersOk ∧
    (offControls .eq 8 16 1).phase = .run ∧ 0xff < 2 ^ (offControls .eq 8 16 1).inWidth.toNat ∧
    16 + 0 * 16 ≤ 64 ∧ ¬16 + 0 * 16 ≤ 8 ∧ 8 + 1 * 8 ≤ 16 ∧ ¬8 + 2 * 8 ≤ 16 := by
  refine ⟨?_, ?_, ?_, ?_, ?_, ?_, by decide⟩ <;> decide

theorem witness_PlacedInstructionRuns :
    (Instr.push (2 ^ 68 - 1)).encodable midGroup.wMax = true ∧
    (Instr.pushImp true false true 0xff).encodable (State.resetAt 8).wMax = true := by decide

theorem witness_EndClosesTheCall :
    (midGroup.raise .protocol).phase = .err ∧ State.reset.phase = .idle ∧
    (midGroup.phase = .run ∧ midGroup.mode = .imp ∧ midGroup.idx ≠ 0) ∧
    (let s := opened 32 bigUnitBigBit 8 bigUnitBigBit; s.phase = .run ∧ s.mode ≠ .imp) ∧
    (let s := opened 8 bigUnitBigBit 32 bigUnitBigBit; s.phase = .run ∧ s.mode = .imp ∧ s.idx = 0) := by decide

theorem witness_ReservedOpcodesRaiseIllegalCmd :
    midGroup.phase ≠ .err ∧ (midGroup.raise .protocol).phase = .err := by decide

/-- The commands of `PhaseTransitions` that have a next state, from a phase of each clause. -/
theorem witness_PhaseTransitions :
    (nextOf (exec (decode 64 0) midGroup)).isSome ∧
    (nextOf (exec (decode 64 0x100000001000000018) midGroup)).isSome ∧
    (nextOf (exec (decode 64 0x20000000000000ffff) midGroup)).isSome ∧
    (nextOf (exec (decode 64 0x200000000000010000) midGroup)).isSome ∧
    (nextOf (exec (decode 64 0x200000000000010000) State.reset)).isSome ∧
    (nextOf (exec (decode 64 0x300000000000000000) midGroup)).isSome ∧
    (nextOf (exec (decode 64 0x700000000000000000) (midGroup.raise .protocol))).isSome ∧
    (nextOf (exec (decode 64 0x800000000000000000) midGroup)).isSome := by decide

theorem witness_ErrPhaseIsSticky :
    (midGroup.raise .protocol).phase = .err ∧ Instr.push 1 ≠ .rst ∧
    ∀ iw ie ow oe, Instr.push 1 ≠ .cfg iw ie ow oe :=
  ⟨by decide, by decide, fun _ _ _ _ h => Instr.noConfusion h⟩

theorem witness_ConfigurationIsConstantInACall :
    (nextOf (exec .endStream midGroup)).isSome ∧ Instr.endStream ≠ .rst ∧
    ∀ iw ie ow oe, Instr.endStream ≠ .cfg iw ie ow oe :=
  ⟨by decide, by decide, fun _ _ _ _ h => Instr.noConfusion h⟩

/-- Also for `StepKeepsInvariant`, `StepAlwaysAnswersNext`, `ReservedValuesNeverOccur`, `ParameterNeverChanges` and
`RegistersFitTheInstance`. -/
theorem witness_BurstsAreAppended :
    midGroup.Inv ∧ midGroup.configured ∧ (nextOf (exec (.push 0x5678) midGroup)).isSome ∧
    (nextOf (step (midGroup.place 0x200000000000005678))).isSome ∧
    (nextOf (exec .endStream midGroup)).isSome :=
  ⟨inv_of_invHolds (by decide), by decide⟩

theorem witness_ResetSatisfiesInvariant :
    Config.isWMax 8 = true ∧ Config.isWMax 64 = true ∧ Config.isWMax 72 = true ∧ Config.isWMax 128 = true := by decide

theorem witness_InvOfEveryPhase :
    (State.resetAt 128).Inv ∧ midGroup.Inv ∧ (midGroup.raise .protocol).Inv ∧
    ({ opened 8 bigUnitBigBit 64 bigUnitBigBit with phase := .done } : State).Inv :=
  ⟨inv_of_invHolds (by decide), inv_of_invHolds (by decide), inv_of_invHolds (by decide),
    inv_of_invHolds (by decide)⟩

theorem witness_CountsInTheMiddleOfACall :
    validate State.reset.wMax (8 : Width).toNat (24 : Width).toNat = .none ∧
    ∀ x ∈ ([0x12, 0xff, 0, 0x34] : List Nat), x < 2 ^ (8 : Width).toNat := by
  refine ⟨by decide, ?_⟩
  simp only [List.forall_mem_cons, List.not_mem_nil, false_imp_iff, implies_true, and_true]
  decide

/-- The two outcomes of `MachineRefinesPack`, and an error with chunks emitted before it. -/
theorem witness_MachineRefinesPack :
    (0x12 < 2 ^ Config.argBits State.reset.wMax ∧ 2 ^ 68 - 1 < 2 ^ Config.argBits State.reset.wMax) ∧
    pack 64 [0x12, 0x34] 8 bigUnitBigBit 16 bigUnitBigBit = .ok [0x1234] ∧
    pack 64 [0x12, 0x34, 1] 8 bigUnitBigBit 16 bigUnitBigBit = .err .incompleteGroup ∧
    completedPrefix [0x12, 0x34, 1] 8 16 = [0x12, 0x34] := by decide

end Sys2Proof.Tests
end

section
/-! Proofs of `00_scope.md`: what a step, END and a reserved opcode can do, and that none of them writes `W_MAX`
(R6). -/

namespace Sys2Proof.Machine

/-! ## What a step, END and a reserved opcode can do -/

/-- A step waits or executes the first word on the port (`47_commands.md` R150). -/
theorem step_cases {s t : State} (h : step s = .next t) :
    (s.commandPort = [] ∧ t = s) ∨
    (∃ w rest, s.commandPort = w :: rest ∧ exec (decode s.wMax w) s = .next t) := by
  rcases hport : s.commandPort with _ | ⟨w, rest⟩
  · simp only [step, State.nextCommand?, hport, List.head?_nil] at h
    injection h with h
    exact .inl ⟨rfl, h.symm⟩
  · simp only [step, State.nextCommand?, hport, List.head?_cons] at h
    exact .inr ⟨w, rest, rfl, h⟩

/-- What END can do (`47_commands.md` R157). -/
theorem execEndStream_cases {s t : State} (h : execEndStream s = .next t) :
    (s.phase = .err ∧ t = s.takeCommand) ∨
    ((s.phase = .idle ∨ s.phase = .done) ∧ t = s.takeCommand.raise .protocol) ∨
    (s.phase = .run ∧ (s.mode = .imp ∧ s.idx ≠ 0) ∧ t = s.takeCommand.raise .incompleteGroup) ∨
    (s.phase = .run ∧ ¬(s.mode = .imp ∧ s.idx ≠ 0) ∧ t = { s.takeCommand with phase := .done }) := by
  cases hp : s.phase <;> simp only [execEndStream, hp] at h
  case err | idle | done =>
    injection h with h
    simp [h]
  case run =>
    split at h <;> injection h with h
    · exact .inr (.inr (.inl ⟨rfl, ‹_›, h.symm⟩))
    · exact .inr (.inr (.inr ⟨rfl, ‹_›, h.symm⟩))

/-- What a reserved opcode can do (`47_commands.md` R158). -/
theorem rejectOpcode_cases {s t : State} (h : rejectOpcode s = .next t) :
    (s.phase = .err ∧ t = s) ∨ (s.phase ≠ .err ∧ t = s.raise .illegalCmd) := by
  unfold rejectOpcode at h
  split at h <;> injection h with h
  · exact .inl ⟨‹_›, h.symm⟩
  · exact .inr ⟨‹_›, h.symm⟩

/-! ## The parameter through the shared operations -/

@[simp] theorem State.configure_wMax (s : State) (iw : Width) (ie : Endianness) (ow : Width) (oe : Endianness) :
    (s.configure iw ie ow oe).wMax = s.wMax := by
  by_cases h : validate s.wMax iw.toNat ow.toNat = .none
  · rw [configure_of_legal ie oe h]
  · rw [configure_of_illegal ie oe h]

@[simp] theorem pushEqPath_wMax (arg : Nat) (s : State) : (pushEqPath arg s).wMax = s.wMax := rfl

@[simp] theorem pushImpPath_wMax (arg : Nat) (s : State) : (pushImpPath arg s).wMax = s.wMax := by
  rcases pushImpPath_cases arg s with ⟨-, h⟩ | ⟨-, h⟩
  · rw [h]
    exact State.emit_wMax s [s.accumulated arg]
  · rw [h]

@[simp] theorem pushExpPath_wMax (arg : Nat) (s : State) : (pushExpPath arg s).wMax = s.wMax := rfl

/-- A PUSH writes `W_MAX` only if its data path does. -/
theorem pushTested_wMax {arg : Nat} {s t : State} {path : Result} (hpath : path = .next t → t.wMax = s.wMax)
    (h : pushTested arg s path = .next t) : t.wMax = s.wMax := by
  rcases pushTested_cases h with ⟨-, rfl⟩ | ⟨-, rfl⟩ | ⟨-, -, rfl⟩ | ⟨-, -, hp⟩
  · rfl
  · exact State.raise_wMax s _
  · exact State.raise_wMax s _
  · exact hpath hp

/-- A row of format CTRL writes `W_MAX` only if its data path does. -/
theorem pushTested_underControl_wMax {arg : Nat} {c : ControlWord} {s t u : State} (hu : u.wMax = s.wMax)
    (h : pushTested arg s (underControl c s (.next u)) = .next t) : t.wMax = s.wMax := by
  refine pushTested_wMax (fun hp => ?_) h
  obtain ⟨-, hp⟩ := underControl_cases hp
  injection hp with hp
  rw [← hp, hu]

/-! ## The parameter through the instructions -/

theorem execPush_wMax {arg : Nat} {s t : State} (h : execPush arg s = .next t) : t.wMax = s.wMax := by
  refine pushTested_wMax (s := s.takeCommand) (fun hp => ?_) h
  injection hp with hp
  subst hp
  split
  · exact pushEqPath_wMax arg _
  · exact pushImpPath_wMax arg _
  · exact pushExpPath_wMax arg _
  · exact pushExpPath_wMax arg _

theorem execEndStream_wMax {s t : State} (h : execEndStream s = .next t) : t.wMax = s.wMax := by
  rcases execEndStream_cases h with ⟨-, rfl⟩ | ⟨-, rfl⟩ | ⟨-, -, rfl⟩ | ⟨-, -, rfl⟩ <;> simp

theorem rejectOpcode_wMax {s t : State} (h : rejectOpcode s = .next t) : t.wMax = s.wMax := by
  rcases rejectOpcode_cases h with ⟨-, rfl⟩ | ⟨-, rfl⟩
  · rfl
  · exact State.raise_wMax s _

/-- The frame of the parameter, instruction by instruction (`00_scope.md` R6). -/
theorem exec_wMax {i : Instr} {s t : State} (h : exec i s = .next t) : t.wMax = s.wMax := by
  cases i with
  | rst =>
    injection h with h
    rw [← h, State.clearRegisters_wMax, State.takeCommand_wMax]
  | cfg iw ie ow oe =>
    injection h with h
    rw [← h, State.configure_wMax, State.takeCommand_wMax]
  | push arg => exact execPush_wMax h
  | endStream => exact execEndStream_wMax h
  | reserved47 _ => exact rejectOpcode_wMax (s := s.takeCommand) h
  | reserved8F _ => exact rejectOpcode_wMax (s := s.takeCommand) h
  | pushEq _ _ arg => exact pushTested_underControl_wMax (s := s.takeCommand) (pushEqPath_wMax arg _) h
  | pushImp _ _ _ arg => exact pushTested_underControl_wMax (s := s.takeCommand) (pushImpPath_wMax arg _) h
  | pushExp _ _ _ arg => exact pushTested_underControl_wMax (s := s.takeCommand) (pushExpPath_wMax arg _) h

theorem step_wMax {s t : State} (h : step s = .next t) : t.wMax = s.wMax := by
  rcases step_cases h with ⟨-, rfl⟩ | ⟨w, rest, -, hexec⟩
  · rfl
  · exact exec_wMax hexec

/-- Settles O54: no instruction writes the parameter, by cases on the instruction, and a step executes one or none. -/
theorem parameterNeverChanges : Obligations.ParameterNeverChanges :=
  fun _ _ => ⟨step_wMax, fun _ => exec_wMax⟩

end Sys2Proof.Machine
end

section
/-! Proofs of `10_state.md`: what a PUSH can do, and that every step keeps the invariant (R22). -/

namespace Sys2Proof.Machine

/-! ## What a PUSH can do -/

/-- The data path that `MODE` selects (`47_commands.md` R153). -/
def pushPath (arg : Nat) (s : State) : State :=
  match s.mode with
  | .eq => pushEqPath arg s
  | .imp => pushImpPath arg s
  | .exp => pushExpPath arg s
  | .none => pushExpPath arg s

theorem execPush_eq (arg : Nat) (s : State) :
    execPush arg s = pushTested arg s.takeCommand (.next (pushPath arg s.takeCommand)) := rfl

theorem pushPath_of_eq {s : State} (arg : Nat) (h : s.mode = .eq) : pushPath arg s = pushEqPath arg s := by
  simp [pushPath, h]

theorem pushPath_of_imp {s : State} (arg : Nat) (h : s.mode = .imp) : pushPath arg s = pushImpPath arg s := by
  simp [pushPath, h]

theorem pushPath_of_exp {s : State} (arg : Nat) (h : s.mode = .exp) : pushPath arg s = pushExpPath arg s := by
  simp [pushPath, h]

/-- Outside mode IMP a data path only emits (`47_commands.md` R154, R156). -/
theorem pushPath_of_ne_imp {s : State} (arg : Nat) (h : s.mode ≠ .imp) :
    ∃ burst, pushPath arg s = s.emit burst := by
  cases hm : s.mode <;> simp only [pushPath, hm]
  case imp => exact absurd hm h
  all_goals exact ⟨_, rfl⟩

/-- A data path writes `IDX`, `ACC` and the output port only. -/
theorem pushPath_frame (arg : Nat) (s : State) :
    ∃ idx acc out, pushPath arg s = { s with idx := idx, acc := acc, outputPort := out } := by
  by_cases hm : s.mode = .imp
  · rw [pushPath_of_imp arg hm]
    rcases pushImpPath_cases arg s with ⟨-, h⟩ | ⟨-, h⟩ <;> exact ⟨_, _, _, h⟩
  · obtain ⟨burst, h⟩ := pushPath_of_ne_imp arg hm
    exact ⟨_, _, _, h⟩

/-- What a PUSH can do (`47_commands.md` R153). -/
theorem execPush_cases {arg : Nat} {s t : State} (h : execPush arg s = .next t) :
    (s.phase = .err ∧ t = s.takeCommand) ∨
    ((s.phase = .idle ∨ s.phase = .done) ∧ t = s.takeCommand.raise .protocol) ∨
    (s.phase = .run ∧ 2 ^ s.inWidth.toNat ≤ arg ∧ t = s.takeCommand.raise .chunkRange) ∨
    (s.phase = .run ∧ arg < 2 ^ s.inWidth.toNat ∧ t = pushPath arg s.takeCommand) := by
  have hcases := pushTested_cases (execPush_eq arg s ▸ h)
  simp only [Host.Outcome.next.injEq] at hcases
  simpa only [State.takeCommand_phase, State.takeCommand_inWidth, eq_comm (a := pushPath _ _)] using hcases

/-- A row of format CTRL that answers a next state is the PUSH it stands for, once the row's control word selects the
row's data path (`30_encoding.md` R58). -/
theorem execPush_of_controlRow {arg : Nat} {c : ControlWord} {s t : State} {path : State → State}
    (hpath : s.takeCommand.controlWord = c → pushPath arg s.takeCommand = path s.takeCommand)
    (h : pushTested arg s.takeCommand (underControl c s.takeCommand (.next (path s.takeCommand))) = .next t) :
    execPush arg s = .next t := by
  rw [execPush_eq]
  rcases pushTested_cases h with ⟨hp, rfl⟩ | ⟨hp, rfl⟩ | ⟨hp, hr, rfl⟩ | ⟨hp, hr, hu⟩
  · exact pushTested_err hp
  · exact pushTested_closed hp
  · exact pushTested_range hp hr
  · obtain ⟨hctrl, hnext⟩ := underControl_cases hu
    rw [pushTested_run hp hr, hpath hctrl, hnext]

/-- The control word holds the code of `MODE` (`30_encoding.md` R58). -/
theorem mode_code_of_controlWord {s : State} {m : BitVec 2} {u b l : Bool}
    (h : s.controlWord = controlWordOf m u b l) : s.mode.code = m :=
  (controlWordOf_injective.mp h).1

theorem Mode.code_injective {m m' : Mode} (h : m.code = m'.code) : m = m' := by
  revert h
  cases m <;> cases m' <;> decide

theorem execPush_of_execPushEq {du db : Bool} {arg : Nat} {s t : State} (h : execPushEq du db arg s = .next t) :
    execPush arg s = .next t :=
  execPush_of_controlRow (path := pushEqPath arg)
    (fun hc => pushPath_of_eq arg (Mode.code_injective (m' := .eq) (mode_code_of_controlWord hc))) h

theorem execPush_of_execPushImp {du db lw : Bool} {arg : Nat} {s t : State}
    (h : execPushImp du db lw arg s = .next t) : execPush arg s = .next t :=
  execPush_of_controlRow (path := pushImpPath arg)
    (fun hc => pushPath_of_imp arg (Mode.code_injective (m' := .imp) (mode_code_of_controlWord hc))) h

theorem execPush_of_execPushExp {du db lw : Bool} {arg : Nat} {s t : State}
    (h : execPushExp du db lw arg s = .next t) : execPush arg s = .next t :=
  execPush_of_controlRow (path := pushExpPath arg)
    (fun hc => pushPath_of_exp arg (Mode.code_injective (m' := .exp) (mode_code_of_controlWord hc))) h

/-! ## How the invariant is met in each phase -/

theorem parameterOk_of_inv {s : State} (h : s.Inv) : s.ParameterOk := h.2.2.2

theorem select_mode_ne_none (iw ow : Nat) : (select iw ow).1 ≠ .none := by
  unfold select
  split
  · exact nofun
  · split <;> exact nofun

/-- The registers after reset meet the invariant (`10_state.md` R22, R24). -/
theorem clearRegisters_inv {s : State} (hw : s.ParameterOk) : s.clearRegisters.Inv := by
  refine ⟨⟨fun _ => rfl, ?_, ?_, ?_, ?_, ?_⟩, ?_, ?_, hw⟩ <;> simp [State.configured]

/-- An error meets the invariant, whatever the registers held (`60_exceptions.md` R196). -/
theorem raise_inv {s : State} {c : Cause} (hw : s.ParameterOk) (hc : c ≠ .none) : (s.raise c).Inv := by
  refine ⟨⟨?_, ?_, ?_, ?_, ?_, ?_⟩, ?_, ?_, hw⟩ <;> simp [State.configured, hc]

/-- What is left to show of an open call: the mode and the bound on `K` follow. -/
theorem inv_of_run {s : State} (hp : s.phase = .run) (hcause : s.cause = .none)
    (hlegal : validate s.wMax s.inWidth.toNat s.outWidth.toNat = .none) (hcontrols : s.ControlsOk)
    (hidx : s.idx.toNat < s.k.toNat) (hother : s.mode ≠ .imp → s.idx = 0 ∧ s.acc = 0)
    (hacc : s.mode = .imp → s.acc < 2 ^ s.outWidth.toNat) (hpending : s.PendingWindowsZero)
    (hw : s.ParameterOk) : s.Inv := by
  have hmode : s.mode ≠ .none := by
    have := select_mode_ne_none s.inWidth.toNat s.outWidth.toNat
    rwa [(hcontrols (.inl hp)).1] at this
  refine ⟨⟨?_, ?_, fun _ => ⟨hcause, hmode, by omega, hlegal⟩, ⟨fun _ => hidx, hother⟩, ?_, hacc⟩, hcontrols,
    hpending, hw⟩ <;> simp [hp]

/-- An accumulator below `2 ^ OUT_WIDTH` whose windows are all pending is zero (`10_state.md` R17). -/
theorem acc_eq_zero_of_idx_eq_zero {s : State} (h : s.Inv) (hp : s.phase = .run) (hidx : s.idx = 0) :
    s.acc = 0 := by
  obtain ⟨hreg, hcontrols, hpending, -⟩ := h
  have ⟨_, _, _, ⟨_, hother⟩, _, hacc⟩ := hreg
  by_cases hm : s.mode = .imp
  swap
  · exact (hother hm).2
  cases openCall_of_registersOk hreg hcontrols (.inl hp) with
  | eq _ _ hm' => exact absurd (hm.symm.trans hm') (by decide)
  | exp _ _ hm' => exact absurd (hm.symm.trans hm') (by decide)
  | imp n _ _ hiw how _ =>
    refine eq_of_window_eq (k := s.k.toNat) (s := 8 * n) (how ▸ hacc hm) (Nat.two_pow_pos _) fun j hj => ?_
    have hzero := hpending hm (slot s.lw s.k.toNat j) (slot_lt hj) (by simp [hidx])
    rw [hiw, how, placeShift_eq (slot_lt hj), slot_slot hj] at hzero
    simpa [window] using hzero

/-! ## The operations keep the invariant -/

/-- The invariant is about the registers: the ports may change. -/
theorem inv_of_ports {s : State} (h : s.Inv) (cs os : List Nat) :
    State.Inv { s with commandPort := cs, outputPort := os } := by
  obtain ⟨⟨hidle, hrest⟩, hcontrols, hpending, hw⟩ := h
  exact ⟨⟨fun hp => congrArg (fun u : State => { u with commandPort := cs, outputPort := os }) (hidle hp), hrest⟩,
    hcontrols, hpending, hw⟩

theorem takeCommand_inv {s : State} (h : s.Inv) : s.takeCommand.Inv := inv_of_ports h ..

theorem emit_inv {s : State} (h : s.Inv) (burst : List Nat) : (s.emit burst).Inv := inv_of_ports h ..

/-- CFG leads to a state of the invariant from every state (`47_commands.md` R152). -/
theorem configure_inv {s : State} (hw : s.ParameterOk) (iw : Width) (ie : Endianness) (ow : Width)
    (oe : Endianness) : (s.configure iw ie ow oe).Inv := by
  by_cases h : validate s.wMax iw.toNat ow.toNat = .none
  · have hk := groupSize_toNat h
    obtain ⟨-, -, hk1, -⟩ := select_bounds h
    rw [configure_of_legal ie oe h]
    refine inv_of_run rfl rfl h (fun _ => ⟨?_, rfl, rfl, rfl⟩) ?_ (fun _ => ⟨rfl, rfl⟩)
      (fun _ => Nat.two_pow_pos _) (fun _ _ _ _ => by simp) hw
    · simp only [hk]
    · simp only [hk]
      exact hk1
  · have : s.configure iw ie ow oe =
        State.raise { s with inWidth := iw, outWidth := ow, inEnd := ie, outEnd := oe }
          (validate s.wMax iw.toNat ow.toNat) := configure_of_illegal ie oe h
    rw [this]
    exact raise_inv hw h

/-- END without a partial group leads to a state of the invariant (`47_commands.md` R157). -/
theorem closeCall_inv {s : State} (h : s.Inv) (hp : s.phase = .run) (hgroup : ¬(s.mode = .imp ∧ s.idx ≠ 0)) :
    State.Inv { s with phase := .done } := by
  have hacc := acc_eq_zero_of_idx_eq_zero h hp
  obtain ⟨⟨-, -, hopen, ⟨-, hother⟩, -, hbound⟩, hcontrols, hpending, hw⟩ := h
  have hidx : s.idx = 0 := by
    by_cases hm : s.mode = .imp
    · exact not_not.mp fun hne => hgroup ⟨hm, hne⟩
    · exact (hother hm).1
  refine ⟨⟨?_, ?_, fun _ => hopen (.inl hp), ⟨?_, hother⟩, fun _ => ⟨hidx, hacc hidx⟩, hbound⟩,
    fun _ => hcontrols (.inl hp), hpending, hw⟩ <;> simp

/-- A chunk placed at slot `i` leaves the other windows as they are (`43_imploder.md` R101). -/
theorem window_implodeStep_of_ne {lw du db : Bool} {n k i j acc x : Nat} (hi : i < k) (hj : j < k) (hij : i ≠ j)
    (hx : x < 2 ^ (8 * n)) :
    window (implodeStep lw du db (8 * n) (k * (8 * n)) i acc x) (8 * n) (slot lw k j) =
      window acc (8 * n) (slot lw k j) := by
  refine Nat.eq_of_testBit_eq fun t => ?_
  rw [window_testBit, window_testBit]
  by_cases ht : t < 8 * n
  · have hbit := implodeFrom_testBit (lw := lw) (du := du) (db := db) (n := n) (k := k) [x] (i := i) (acc := acc)
      (by simpa using hi) (by simpa using hx) (j := slot lw k j) ht
    have hslot : slot lw k i ≠ slot lw k j := fun h => hij (slot_injective hi hj h)
    simp only [implodeFrom] at hbit
    simp [hbit, hslot]
  · simp [ht]

/-- The imploder's data path keeps the invariant (`47_commands.md` R155). -/
theorem pushImpPath_inv {s : State} {arg : Nat} (h : s.Inv) (hp : s.phase = .run) (hm : s.mode = .imp)
    (hf : arg < 2 ^ s.inWidth.toNat) : (pushImpPath arg s).Inv := by
  obtain ⟨hreg, hcontrols, hpending, hw⟩ := h
  have hstep := accumulated_eq hreg hcontrols hp hm hf
  have hcall := openCall_of_registersOk hreg hcontrols (.inl hp)
  obtain ⟨-, -, hopen, ⟨hidx, -⟩, -, -⟩ := hreg
  obtain ⟨hcause, -, hk, hlegal⟩ := hopen (.inl hp)
  have hlt := hidx hp
  rcases pushImpPath_cases arg s with ⟨-, heq⟩ | ⟨hne, heq⟩ <;> rw [heq]
  · exact inv_of_run hp hcause hlegal hcontrols hk (fun _ => ⟨rfl, rfl⟩) (fun _ => Nat.two_pow_pos _)
      (fun _ _ _ _ => by simp) hw
  · have hnext : (s.idx + 1).toNat = s.idx.toNat + 1 := by
      have := s.k.isLt
      rw [BitVec.toNat_add]
      exact Nat.mod_eq_of_lt (by simp; omega)
    refine inv_of_run hp hcause hlegal hcontrols (by simp only [hnext]; omega) (fun hm' => absurd hm hm')
      (fun _ => presented_lt ..) (fun _ i hi hle => ?_) hw
    simp only [hnext] at hi hle
    cases hcall with
    | eq _ _ hm' => exact absurd (hm.symm.trans hm') (by decide)
    | exp _ _ hm' => exact absurd (hm.symm.trans hm') (by decide)
    | imp n _ _ hiw how _ =>
      have hzero := hpending hm i hi (by omega)
      simp only [hstep]
      rw [hiw, how, placeShift_eq hi] at hzero ⊢
      rw [hiw] at hf
      exact (window_implodeStep_of_ne hlt hi (by omega) hf).trans hzero

theorem pushPath_inv {s : State} {arg : Nat} (h : s.Inv) (hp : s.phase = .run) (hf : arg < 2 ^ s.inWidth.toNat) :
    (pushPath arg s).Inv := by
  by_cases hm : s.mode = .imp
  · rw [pushPath_of_imp arg hm]
    exact pushImpPath_inv h hp hm hf
  · obtain ⟨burst, heq⟩ := pushPath_of_ne_imp arg hm
    rw [heq]
    exact emit_inv h burst

/-! ## The instructions keep the invariant -/

theorem execPush_inv {arg : Nat} {s t : State} (hs : s.Inv) (h : execPush arg s = .next t) : t.Inv := by
  have htake := takeCommand_inv hs
  have hw := parameterOk_of_inv hs
  rcases execPush_cases h with ⟨-, rfl⟩ | ⟨-, rfl⟩ | ⟨-, -, rfl⟩ | ⟨hp, hf, rfl⟩
  · exact htake
  · exact raise_inv hw (by decide)
  · exact raise_inv hw (by decide)
  · exact pushPath_inv htake hp hf

theorem execEndStream_inv {s t : State} (hs : s.Inv) (h : execEndStream s = .next t) : t.Inv := by
  have htake := takeCommand_inv hs
  have hw := parameterOk_of_inv hs
  rcases execEndStream_cases h with ⟨-, rfl⟩ | ⟨-, rfl⟩ | ⟨-, -, rfl⟩ | ⟨hp, hgroup, rfl⟩
  · exact htake
  · exact raise_inv hw (by decide)
  · exact raise_inv hw (by decide)
  · exact closeCall_inv htake hp hgroup

theorem rejectOpcode_inv {s t : State} (hs : s.Inv) (h : rejectOpcode s = .next t) : t.Inv := by
  have hw := parameterOk_of_inv hs
  rcases rejectOpcode_cases h with ⟨-, rfl⟩ | ⟨-, rfl⟩
  · exact hs
  · exact raise_inv hw (by decide)

theorem exec_inv {i : Instr} {s t : State} (hs : s.Inv) (h : exec i s = .next t) : t.Inv := by
  have hw := parameterOk_of_inv hs
  cases i with
  | rst =>
    injection h with h
    exact h ▸ clearRegisters_inv (s := s.takeCommand) hw
  | cfg iw ie ow oe =>
    injection h with h
    exact h ▸ configure_inv (s := s.takeCommand) hw iw ie ow oe
  | push arg => exact execPush_inv hs h
  | endStream => exact execEndStream_inv hs h
  | reserved47 _ => exact rejectOpcode_inv (takeCommand_inv hs) h
  | reserved8F _ => exact rejectOpcode_inv (takeCommand_inv hs) h
  | pushEq _ _ _ => exact execPush_inv hs (execPush_of_execPushEq h)
  | pushImp _ _ _ _ => exact execPush_inv hs (execPush_of_execPushImp h)
  | pushExp _ _ _ _ => exact execPush_inv hs (execPush_of_execPushExp h)

theorem step_inv {s t : State} (hs : s.Inv) (h : step s = .next t) : t.Inv := by
  rcases step_cases h with ⟨-, rfl⟩ | ⟨w, rest, -, hexec⟩
  · exact hs
  · exact exec_inv hs hexec

/-- Settles O57: each instruction keeps the invariant, by cases on it, and a step executes one or none. The idea is in
`pushImpPath_inv` (a placed chunk leaves the pending windows zero) and `closeCall_inv` (with no partial group every
window is pending, so that the accumulator is zero). -/
theorem stepKeepsInvariant : Obligations.StepKeepsInvariant :=
  fun _ hs => ⟨fun _ => step_inv hs, fun _ _ => exec_inv hs⟩

end Sys2Proof.Machine
end

section
/-! Proofs of `10_state.md`: phases and causes (R11), the configuration of a call (R13), the sizes of the registers
(R10, R15, R17), the state after CFG (R23) and after reset (R24). -/

namespace Sys2Proof.Machine

/-! ## The phase and cause after each command -/

/-- A row of format CTRL is a value of the control word, and stands in no command word (`30_encoding.md` R58). -/
def isControlRow : Instr → Bool
  | .pushEq _ _ _ | .pushImp _ _ _ _ | .pushExp _ _ _ _ => true
  | .rst | .cfg _ _ _ _ | .push _ | .endStream | .reserved47 _ | .reserved8F _ => false

theorem decode_not_controlRow (wMax w : Nat) : isControlRow (decode wMax w) = false := by
  simp only [decode]
  repeat' split
  all_goals rfl

theorem configure_phase (s : State) (iw : Width) (ie : Endianness) (ow : Width) (oe : Endianness) :
    (s.configure iw ie ow oe).cause = validate s.wMax iw.toNat ow.toNat ∧
    (s.configure iw ie ow oe).phase = if validate s.wMax iw.toNat ow.toNat = .none then .run else .err := by
  by_cases h : validate s.wMax iw.toNat ow.toNat = .none
  · rw [configure_of_legal ie oe h]
    simp [h]
  · rw [configure_of_illegal ie oe h]
    simp [h]

/-- The column of PUSH (`10_state.md` R11). -/
theorem execPush_phase {arg : Nat} {s t : State} (h : execPush arg s = .next t) :
    (s.phase = .err → t.phase = .err ∧ t.cause = s.cause) ∧
    (s.phase = .idle ∨ s.phase = .done → t.phase = .err ∧ t.cause = .protocol) ∧
    (s.phase = .run → arg < 2 ^ s.inWidth.toNat → t.phase = .run ∧ t.cause = s.cause) ∧
    (s.phase = .run → 2 ^ s.inWidth.toNat ≤ arg → t.phase = .err ∧ t.cause = .chunkRange) := by
  rcases execPush_cases h with ⟨hp, rfl⟩ | ⟨hp, rfl⟩ | ⟨hp, hr, rfl⟩ | ⟨hp, hf, rfl⟩
  · simp [hp]
  · rcases hp with hp | hp <;> simp [hp]
  · simp [hp, Nat.not_lt.mpr hr]
  · obtain ⟨idx, acc, out, heq⟩ := pushPath_frame arg s.takeCommand
    simp [hp, heq, Nat.not_le.mpr hf]

/-- The column of END (`10_state.md` R11). -/
theorem execEndStream_phase {s t : State} (h : execEndStream s = .next t) :
    (s.phase = .err → t.phase = .err ∧ t.cause = s.cause) ∧
    (s.phase = .idle ∨ s.phase = .done → t.phase = .err ∧ t.cause = .protocol) ∧
    (s.phase = .run →
      (t.phase = .done ∧ t.cause = s.cause) ∨ (t.phase = .err ∧ t.cause = .incompleteGroup)) := by
  rcases execEndStream_cases h with ⟨hp, rfl⟩ | ⟨hp, rfl⟩ | ⟨hp, -, rfl⟩ | ⟨hp, -, rfl⟩
  · simp [hp]
  · rcases hp with hp | hp <;> simp [hp]
  · simp [hp]
  · simp [hp]

/-- The column of the reserved opcodes (`10_state.md` R11). -/
theorem rejectOpcode_phase {s t : State} (h : rejectOpcode s = .next t) :
    t.phase = .err ∧ t.cause = if s.phase = .err then s.cause else .illegalCmd := by
  rcases rejectOpcode_cases h with ⟨hp, rfl⟩ | ⟨hp, rfl⟩ <;> simp [hp]

/-- Settles O48: the columns of the table, command by command. -/
theorem phaseTransitions : Obligations.PhaseTransitions := by
  refine ⟨⟨rfl, rfl, rfl, rfl⟩, fun s t w h => ?_⟩
  have hrow := decode_not_controlRow s.wMax w
  revert h hrow
  cases decode s.wMax w with
  | rst =>
    intro h _
    injection h with h
    exact h ▸ ⟨rfl, rfl⟩
  | cfg iw ie ow oe =>
    intro h _
    injection h with h
    exact h ▸ configure_phase s.takeCommand iw ie ow oe
  | push arg => exact fun h _ => execPush_phase h
  | endStream => exact fun h _ => execEndStream_phase h
  | reserved47 _ => exact fun h _ => rejectOpcode_phase (s := s.takeCommand) h
  | reserved8F _ => exact fun h _ => rejectOpcode_phase (s := s.takeCommand) h
  | pushEq _ _ _ => exact fun _ hrow => Bool.noConfusion hrow
  | pushImp _ _ _ _ => exact fun _ hrow => Bool.noConfusion hrow
  | pushExp _ _ _ _ => exact fun _ hrow => Bool.noConfusion hrow

/-! ## The configuration of a call -/

/-- The four configuration registers are the same (`10_state.md` R13). -/
def SameConfiguration (t s : State) : Prop :=
  t.inWidth = s.inWidth ∧ t.outWidth = s.outWidth ∧ t.inEnd = s.inEnd ∧ t.outEnd = s.outEnd

theorem takeCommand_sameConfiguration (s : State) : SameConfiguration s.takeCommand s := ⟨rfl, rfl, rfl, rfl⟩

/-- An error keeps the configuration registers (`60_exceptions.md` R196). -/
theorem raise_sameConfiguration (s : State) (c : Cause) : SameConfiguration (s.takeCommand.raise c) s :=
  ⟨rfl, rfl, rfl, rfl⟩

theorem execPush_sameConfiguration {arg : Nat} {s t : State} (h : execPush arg s = .next t) :
    SameConfiguration t s := by
  rcases execPush_cases h with ⟨-, rfl⟩ | ⟨-, rfl⟩ | ⟨-, -, rfl⟩ | ⟨-, -, rfl⟩
  · exact takeCommand_sameConfiguration s
  · exact raise_sameConfiguration s _
  · exact raise_sameConfiguration s _
  · obtain ⟨idx, acc, out, heq⟩ := pushPath_frame arg s.takeCommand
    rw [heq]
    exact takeCommand_sameConfiguration s

theorem execEndStream_sameConfiguration {s t : State} (h : execEndStream s = .next t) : SameConfiguration t s := by
  rcases execEndStream_cases h with ⟨-, rfl⟩ | ⟨-, rfl⟩ | ⟨-, -, rfl⟩ | ⟨-, -, rfl⟩
  · exact takeCommand_sameConfiguration s
  · exact raise_sameConfiguration s _
  · exact raise_sameConfiguration s _
  · exact takeCommand_sameConfiguration s

theorem rejectOpcode_sameConfiguration {s t : State} (h : rejectOpcode s.takeCommand = .next t) :
    SameConfiguration t s := by
  rcases rejectOpcode_cases h with ⟨-, rfl⟩ | ⟨-, rfl⟩
  · exact takeCommand_sameConfiguration s
  · exact raise_sameConfiguration s _

/-- Settles O50: the frame of the configuration registers, by cases on the instruction. -/
theorem configurationIsConstantInACall : Obligations.ConfigurationIsConstantInACall := by
  intro s t i h hrst hcfg
  cases i with
  | rst => exact absurd rfl hrst
  | cfg iw ie ow oe => exact absurd rfl (hcfg iw ie ow oe)
  | push _ => exact execPush_sameConfiguration h
  | endStream => exact execEndStream_sameConfiguration h
  | reserved47 _ => exact rejectOpcode_sameConfiguration h
  | reserved8F _ => exact rejectOpcode_sameConfiguration h
  | pushEq _ _ _ => exact execPush_sameConfiguration (execPush_of_execPushEq h)
  | pushImp _ _ _ _ => exact execPush_sameConfiguration (execPush_of_execPushImp h)
  | pushExp _ _ _ _ => exact execPush_sameConfiguration (execPush_of_execPushExp h)

/-! ## The sizes of the registers -/

/-- Outside an open or finished call `K` and the accumulator are zero (`10_state.md` R22). -/
theorem k_acc_eq_zero_of_not_configured {s : State} (h : s.RegistersOk) (hp : ¬s.configured) :
    s.k = 0 ∧ s.acc = 0 := by
  obtain ⟨hidle, herr, -⟩ := h
  cases hphase : s.phase with
  | idle =>
    rw [hidle hphase]
    exact ⟨State.clearRegisters_k s, State.clearRegisters_acc s⟩
  | run => exact absurd (.inl hphase) hp
  | done => exact absurd (.inr hphase) hp
  | err =>
    obtain ⟨-, -, -, -, -, hk, -, hacc⟩ := herr hphase
    exact ⟨hk, hacc⟩

/-- The accumulator of a legal call is below `2 ^ OUT_WIDTH` in mode IMP and zero otherwise (`10_state.md` R17). -/
theorem acc_lt_two_pow_outWidth {s : State} (h : s.RegistersOk) : s.acc < 2 ^ s.outWidth.toNat := by
  obtain ⟨-, -, -, ⟨-, hother⟩, -, hacc⟩ := h
  by_cases hm : s.mode = .imp
  · exact hacc hm
  · rw [(hother hm).2]
    exact Nat.two_pow_pos _

/-- Settles O55: an open call has the sizes of its legal widths, and any other state has zeros. -/
theorem registersFitTheInstance : Obligations.RegistersFitTheInstance := by
  rintro s ⟨hreg, hcontrols, -, -⟩
  by_cases hp : s.configured
  · have ⟨_, _, hopen, _⟩ := hreg
    obtain ⟨-, -, -, hlegal⟩ := hopen hp
    obtain ⟨hiw, how, -, hk, -⟩ := select_bounds hlegal
    rw [(hcontrols hp).1] at hk
    exact ⟨Nat.lt_of_lt_of_le (acc_lt_two_pow_outWidth hreg) (Nat.pow_le_pow_right (by decide) how), hk,
      fun _ => ⟨hiw, how⟩⟩
  · obtain ⟨hk, hacc⟩ := k_acc_eq_zero_of_not_configured hreg hp
    refine ⟨?_, ?_, fun h => absurd h hp⟩
    · rw [hacc]
      exact Nat.two_pow_pos _
    · simp [hk]

/-! ## The state after CFG and after reset -/

/-- CFG writes every register (`47_commands.md` R152), so that only the parameter and the ports are left of the past. -/
theorem configure_congr {s s' : State} (hw : s'.wMax = s.wMax) (hc : s'.commandPort = s.commandPort)
    (ho : s'.outputPort = s.outputPort) (iw : Width) (ie : Endianness) (ow : Width) (oe : Endianness) :
    s'.configure iw ie ow oe = s.configure iw ie ow oe := by
  by_cases h : validate s.wMax iw.toNat ow.toNat = .none
  · rw [configure_of_legal ie oe h, configure_of_legal ie oe (hw ▸ h), hw, hc, ho]
  · rw [configure_of_illegal ie oe h, configure_of_illegal ie oe (hw ▸ h), hw, hc, ho]

/-- Settles O36: taking the command leaves the ports of both states equal, and CFG writes the rest. -/
theorem cfgForgetsThePast : Obligations.CfgForgetsThePast := by
  intro s s' iw ow ie oe hw hc ho
  have htail : s'.takeCommand.commandPort = s.takeCommand.commandPort := congrArg List.tail hc
  exact congrArg Host.Outcome.next
    (configure_congr (s := s.takeCommand) (s' := s'.takeCommand) hw htail ho iw ie ow oe)

theorem statusWord_resetAt (wMax : Nat) : (State.resetAt wMax).statusWord = 0 := by
  simp only [State.statusWord, State.resetAt]
  decide

/-- Settles O56: the reset state is its own cleared state. -/
theorem resetSatisfiesInvariant : Obligations.ResetSatisfiesInvariant :=
  ⟨rfl, fun wMax hw => ⟨clearRegisters_inv (s := State.resetAt wMax) hw, statusWord_resetAt wMax, rfl⟩⟩

end Sys2Proof.Machine
end

section
/-! Proofs of `20_memory.md`: the units a stream stands for (R35), and the bursts on the output port (R33). -/

namespace Sys2Proof.Machine

/-! ## The units of a stream through each algorithm -/

/-- The equal-size converter keeps the units (`45_equal_size.md` R122). -/
theorem streamUnits_convertStream {n : Nat} {xs : List Nat} (ie oe : Endianness) (hx : ∀ x ∈ xs, x < 2 ^ (8 * n)) :
    streamUnits (8 * n) oe (convertStream xs (8 * n) ie oe) = streamUnits (8 * n) ie xs := by
  rw [streamUnits, convertStream, List.flatMap_map]
  exact List.flatMap_congr fun x h => referenceUnits_xform (hx x h) ie oe

/-- The imploder keeps the units, group after group (`43_imploder.md` R102). -/
theorem streamUnits_implodeStream {n k : Nat} {xs : List Nat} (hn : 0 < n) (hk : 0 < k) (ie oe : Endianness)
    (hlen : xs.length % k = 0) (hx : ∀ x ∈ xs, x < 2 ^ (8 * n)) :
    streamUnits (k * (8 * n)) oe (implodeStream xs (8 * n) ie (k * (8 * n)) oe) = streamUnits (8 * n) ie xs := by
  refine wholeGroups_induction hk (P := fun xs => (∀ x ∈ xs, x < 2 ^ (8 * n)) →
    streamUnits (k * (8 * n)) oe (implodeStream xs (8 * n) ie (k * (8 * n)) oe) = streamUnits (8 * n) ie xs)
    ?_ ?_ (xs.length / k) xs (Nat.div_mul_cancel (Nat.dvd_of_mod_eq_zero hlen)).symm hx
  · intro _
    rw [implodeStream_nil]
    rfl
  · intro g rest hg _ ih hx
    obtain ⟨hgroup, hrest⟩ := List.forall_mem_append.mp hx
    rw [streamUnits] at ih
    rw [implodeStream_append hn hk hg, streamUnits, List.flatMap_cons, referenceUnits_implodeGroup ie oe hg hgroup,
      ih hrest, streamUnits, streamUnits, List.flatMap_append]

/-- The exploder keeps the units (`44_exploder.md` R112). -/
theorem streamUnits_explodeStream {n : Nat} (hn : 0 < n) (k : Nat) (xs : List Nat) (ie oe : Endianness) :
    streamUnits (8 * n) oe (explodeStream xs (k * (8 * n)) ie (8 * n) oe) = streamUnits (k * (8 * n)) ie xs := by
  rw [streamUnits, explodeStream, List.flatMap_assoc]
  exact List.flatMap_congr fun x _ => referenceUnits_explodeChunk hn x ie oe

/-- Settles O27: each of the three algorithms keeps the units. -/
theorem packKeepsReferenceUnits : Obligations.PackKeepsReferenceUnits := by
  intro wMax xs ys w1 w2 e1 e2 h
  obtain ⟨-, hok⟩ := pack_eq_ok_iff.mp h
  cases hok with
  | eq n _ _ _ _ hx => exact streamUnits_convertStream e1 e2 hx
  | imp n k _ _ _ hn hk hx hlen => exact streamUnits_implodeStream hn (by omega) e1 e2 hlen hx
  | exp n k _ _ _ hn _ _ => exact streamUnits_explodeStream hn k xs e1 e2

/-! ## What a command does to the ports -/

@[simp] theorem State.configure_commandPort (s : State) (iw : Width) (ie : Endianness) (ow : Width)
    (oe : Endianness) : (s.configure iw ie ow oe).commandPort = s.commandPort := by
  by_cases h : validate s.wMax iw.toNat ow.toNat = .none
  · rw [configure_of_legal ie oe h]
  · rw [configure_of_illegal ie oe h]

@[simp] theorem State.configure_outputPort (s : State) (iw : Width) (ie : Endianness) (ow : Width)
    (oe : Endianness) : (s.configure iw ie ow oe).outputPort = s.outputPort := by
  by_cases h : validate s.wMax iw.toNat ow.toNat = .none
  · rw [configure_of_legal ie oe h]
  · rw [configure_of_illegal ie oe h]

/-- What a command may do to the ports: it is taken, and its burst is appended (`20_memory.md` R33,
`47_commands.md` R150). -/
structure AppendsBurst (s t : State) (burst : List Nat) : Prop where
  taken : t.commandPort = s.commandPort.tail
  appended : t.outputPort = s.outputPort ++ burst
  length : burst.length = 0 ∨ burst.length = 1 ∨ burst.length = s.k.toNat
  bounded : ∀ c ∈ burst, c < 2 ^ s.outWidth.toNat ∧ c < 2 ^ s.wMax

/-- A command that leaves the output port as it is has the empty burst. -/
theorem appendsBurst_nil {s t : State} (htaken : t.commandPort = s.commandPort.tail)
    (hkept : t.outputPort = s.outputPort) : AppendsBurst s t [] where
  taken := htaken
  appended := by rw [hkept, List.append_nil]
  length := .inl rfl
  bounded := nofun

/-- What a data path emits is the burst, each chunk in the bits of the port (`20_memory.md` R33). -/
theorem appendsBurst_emit {s t : State} {chunks : List Nat} (htaken : t.commandPort = s.commandPort.tail)
    (hemit : t.outputPort = (s.emit chunks).outputPort) (hlen : chunks.length = 1 ∨ chunks.length = s.k.toNat) :
    AppendsBurst s t (chunks.map (presented s.wMax s.outWidth.toNat)) where
  taken := htaken
  appended := hemit
  length := .inr (by rwa [List.length_map])
  bounded := List.forall_mem_map.mpr fun _ _ => ⟨presented_lt .., presented_lt_wMax ..⟩

/-- A data path emits one chunk in mode EQ, one or none in mode IMP, and `K` otherwise (`47_commands.md` R154 to
R156). -/
theorem pushPath_appendsBurst (arg : Nat) (s : State) :
    ∃ burst, AppendsBurst s (pushPath arg s.takeCommand) burst := by
  cases hm : s.takeCommand.mode with
  | eq =>
    rw [pushPath_of_eq arg hm]
    exact ⟨_, appendsBurst_emit (chunks := [_]) rfl rfl (.inl rfl)⟩
  | imp =>
    rw [pushPath_of_imp arg hm]
    rcases pushImpPath_cases arg s.takeCommand with ⟨-, h⟩ | ⟨-, h⟩ <;> rw [h]
    · exact ⟨_, appendsBurst_emit (chunks := [_]) rfl rfl (.inl rfl)⟩
    · exact ⟨_, appendsBurst_nil rfl rfl⟩
  | exp | none =>
    simp only [pushPath, hm]
    exact ⟨_, appendsBurst_emit (chunks := (List.range s.k.toNat).map _) rfl rfl (.inr (by simp))⟩

theorem execPush_appendsBurst {arg : Nat} {s t : State} (h : execPush arg s = .next t) :
    ∃ burst, AppendsBurst s t burst := by
  rcases execPush_cases h with ⟨-, rfl⟩ | ⟨-, rfl⟩ | ⟨-, -, rfl⟩ | ⟨-, -, rfl⟩
  · exact ⟨_, appendsBurst_nil rfl rfl⟩
  · exact ⟨_, appendsBurst_nil rfl rfl⟩
  · exact ⟨_, appendsBurst_nil rfl rfl⟩
  · exact pushPath_appendsBurst arg s

theorem execEndStream_appendsBurst {s t : State} (h : execEndStream s = .next t) : AppendsBurst s t [] := by
  rcases execEndStream_cases h with ⟨-, rfl⟩ | ⟨-, rfl⟩ | ⟨-, -, rfl⟩ | ⟨-, -, rfl⟩ <;>
    exact appendsBurst_nil rfl rfl

theorem rejectOpcode_appendsBurst {s t : State} (h : rejectOpcode s.takeCommand = .next t) :
    AppendsBurst s t [] := by
  rcases rejectOpcode_cases h with ⟨-, rfl⟩ | ⟨-, rfl⟩ <;> exact appendsBurst_nil rfl rfl

/-! ## Only a PUSH emits -/

/-- PUSH, and the rows of format CTRL that a PUSH executes (`30_encoding.md` R58). -/
def isPush : Instr → Bool
  | .push _ | .pushEq _ _ _ | .pushImp _ _ _ _ | .pushExp _ _ _ _ => true
  | .rst | .cfg _ _ _ _ | .endStream | .reserved47 _ | .reserved8F _ => false

theorem isPush_eq_true {i : Instr} (h : isPush i = true) :
    (∃ arg, i = .push arg) ∨ (∃ u b arg, i = .pushEq u b arg) ∨ (∃ u b l arg, i = .pushImp u b l arg) ∨
      ∃ u b l arg, i = .pushExp u b l arg := by
  cases i with
  | push arg => exact .inl ⟨arg, rfl⟩
  | pushEq u b arg => exact .inr (.inl ⟨u, b, arg, rfl⟩)
  | pushImp u b l arg => exact .inr (.inr (.inl ⟨u, b, l, arg, rfl⟩))
  | pushExp u b l arg => exact .inr (.inr (.inr ⟨u, b, l, arg, rfl⟩))
  | rst | cfg _ _ _ _ | endStream | reserved47 _ | reserved8F _ => exact Bool.noConfusion h

/-- Every instruction of the PUSH family that answers a next state answers it as a PUSH. -/
theorem execPush_of_isPush {i : Instr} {s t : State} (hi : isPush i = true) (h : exec i s = .next t) :
    ∃ arg, execPush arg s = .next t := by
  rcases isPush_eq_true hi with ⟨arg, rfl⟩ | ⟨_, _, arg, rfl⟩ | ⟨_, _, _, arg, rfl⟩ | ⟨_, _, _, arg, rfl⟩
  · exact ⟨arg, h⟩
  · exact ⟨arg, execPush_of_execPushEq h⟩
  · exact ⟨arg, execPush_of_execPushImp h⟩
  · exact ⟨arg, execPush_of_execPushExp h⟩

/-- Outside the PUSH family nothing is emitted (`20_memory.md` R33). -/
theorem exec_appendsBurst_nil {i : Instr} {s t : State} (hi : isPush i = false) (h : exec i s = .next t) :
    AppendsBurst s t [] := by
  cases i with
  | rst =>
    injection h with h
    exact h ▸ appendsBurst_nil rfl rfl
  | cfg iw ie ow oe =>
    injection h with h
    rw [← h]
    exact appendsBurst_nil (State.configure_commandPort ..) (State.configure_outputPort ..)
  | endStream => exact execEndStream_appendsBurst h
  | reserved47 _ => exact rejectOpcode_appendsBurst h
  | reserved8F _ => exact rejectOpcode_appendsBurst h
  | push _ | pushEq _ _ _ | pushImp _ _ _ _ | pushExp _ _ _ _ => exact Bool.noConfusion hi

/-- Settles O51: a PUSH appends the burst of its data path, and every other instruction the empty one. -/
theorem burstsAreAppended : Obligations.BurstsAreAppended := by
  intro s t i h
  cases hi : isPush i with
  | false =>
    obtain ⟨htaken, happended, hlen, hbound⟩ := exec_appendsBurst_nil hi h
    exact ⟨htaken, [], happended, hlen, hbound, fun _ _ _ _ => rfl⟩
  | true =>
    obtain ⟨arg, hpush⟩ := execPush_of_isPush hi h
    obtain ⟨burst, htaken, happended, hlen, hbound⟩ := execPush_appendsBurst hpush
    refine ⟨htaken, burst, happended, hlen, hbound, fun hpush heq himp hexp => ?_⟩
    rcases isPush_eq_true hi with ⟨_, rfl⟩ | ⟨_, _, _, rfl⟩ | ⟨_, _, _, _, rfl⟩ | ⟨_, _, _, _, rfl⟩
    · exact absurd rfl (hpush _)
    · exact absurd rfl (heq _ _ _)
    · exact absurd rfl (himp _ _ _ _)
    · exact absurd rfl (hexp _ _ _ _)

end Sys2Proof.Machine
end

section
/-! Proofs of `30_encoding.md`: the encoder and the decoder undo each other (R50 to R56, R60), and the control words
select their rows (R58). -/

namespace Sys2Proof

/-! ## The decoder from the two fields of a word -/

/-- The decoder reads a word's two fields only (`30_encoding.md` R50). -/
theorem decode_eq_of_opField {wMax w : Nat} {op : BitVec 4} (hop : opField wMax w = op) :
    decode wMax w = decode wMax (commandWord wMax op (argField wMax w)) := by
  simp only [decode, opField_commandWord, argField_commandWord, Nat.mod_eq_of_lt (argField_lt wMax w), hop]

/-- A CFG word with any operand, its ignored bits included (`30_encoding.md` R53). -/
theorem decode_cfgWord {wMax arg : Nat} (h : arg < 2 ^ Config.argBits wMax) :
    decode wMax (commandWord wMax 0x1#4 arg) =
      .cfg (inWidthField arg) (inEndField arg) (outWidthField arg) (outEndField arg) := by
  simp [decode, Nat.mod_eq_of_lt h]

/-- The rows of the opcode map (`30_encoding.md` R51). -/
theorem opcode_cases (op : BitVec 4) :
    op = 0x0#4 ∨ op = 0x1#4 ∨ op = 0x2#4 ∨ op = 0x3#4 ∨ (∃ r : BitVec 2, op = 0b01#2 ++ r) ∨
      ∃ r : BitVec 3, op = 1#1 ++ r := by
  revert op
  decide

theorem exists_opcode47 {op : BitVec 4} (hlo : 4 ≤ op.toNat) (hhi : op.toNat < 8) :
    ∃ r : BitVec 2, op = 0b01#2 ++ r ∧ r.toNat = op.toNat % 4 := by
  revert op
  decide

theorem exists_opcode8F {op : BitVec 4} (hlo : 8 ≤ op.toNat) :
    ∃ r : BitVec 3, op = 1#1 ++ r ∧ r.toNat = op.toNat % 8 := by
  revert op
  decide

/-- A field inside the operand bits stands at the same bits of the word. -/
theorem argField_div_mod {wMax : Nat} (w : Nat) {lo len : Nat} (h : lo + len ≤ Config.argBits wMax) :
    argField wMax w / 2 ^ lo % 2 ^ len = w / 2 ^ lo % 2 ^ len := by
  have hsplit : Config.argBits wMax = lo + (Config.argBits wMax - lo) := by omega
  rw [argField, hsplit, Nat.pow_add, Nat.mod_mul_right_div_self]
  exact Nat.mod_mod_of_dvd _ (Nat.pow_dvd_pow 2 (by omega))

/-! ## The rows of format CTRL -/

/-- The rows of format CTRL with their control words (`30_encoding.md` R58), for a PUSH of `arg`. -/
inductive ControlRow (arg : Nat) : ControlWord → Instr → Prop where
  | eq (u b : Bool) : ControlRow arg (controlWordOf 0b01#2 u b false) (.pushEq u b arg)
  | imp (u b l : Bool) : ControlRow arg (controlWordOf 0b10#2 u b l) (.pushImp u b l arg)
  | exp (u b l : Bool) : ControlRow arg (controlWordOf 0b11#2 u b l) (.pushExp u b l arg)

theorem bitVec2_cases (m : BitVec 2) : m = 0b00#2 ∨ m = 0b01#2 ∨ m = 0b10#2 ∨ m = 0b11#2 := by
  revert m
  decide

/-- The control word decoder answers exactly the rows. -/
theorem decodeControl_eq_ok_iff {c : ControlWord} {arg : Nat} {i : Instr} :
    decodeControl c arg = .ok i ↔ ControlRow arg c i := by
  constructor
  · intro h
    obtain ⟨m, u, b, l, rfl⟩ := exists_controlWordOf c
    obtain ⟨heq, himp, hexp, hnone⟩ := decodeControl_eq u b l arg
    rcases bitVec2_cases m with rfl | rfl | rfl | rfl
    · rw [hnone] at h
      cases h
    · rw [heq] at h
      cases l <;> cases h
      exact .eq u b
    · rw [himp] at h
      cases h
      exact .imp u b l
    · rw [hexp] at h
      cases h
      exact .exp u b l
  · intro hrow
    cases hrow with
    | eq u b => exact (decodeControl_eq u b false arg).1
    | imp u b l =>
      obtain ⟨-, himp, -, -⟩ := decodeControl_eq u b l arg
      exact himp
    | exp u b l =>
      obtain ⟨-, -, hexp, -⟩ := decodeControl_eq u b l arg
      exact hexp

/-- An instruction is encoded as a command word, or it is a row of format CTRL and encoded as its control word with
the PUSH (`30_encoding.md` R51, R58). -/
theorem encode_cases (wMax : Nat) (i : Instr) :
    (∃ w, encode wMax i = .command w) ∨
      ∃ c arg, ControlRow arg c i ∧ encode wMax i = .control c (pushWord wMax arg) := by
  cases i with
  | pushEq u b arg => exact .inr ⟨_, arg, .eq u b, rfl⟩
  | pushImp u b l arg => exact .inr ⟨_, arg, .imp u b l, rfl⟩
  | pushExp u b l arg => exact .inr ⟨_, arg, .exp u b l, rfl⟩
  | rst | cfg _ _ _ _ | push _ | endStream | reserved47 _ | reserved8F _ => exact .inl ⟨_, rfl⟩

theorem arg_lt_of_encodable {wMax arg : Nat} {c : ControlWord} {i : Instr} (hrow : ControlRow arg c i)
    (h : i.encodable wMax = true) : arg < 2 ^ Config.argBits wMax := by
  cases hrow <;> exact of_decide_eq_true h

/-! ## Decode of encode -/

theorem decodeEncoding_control {wMax arg : Nat} (c : ControlWord) (h : arg < 2 ^ Config.argBits wMax) :
    decodeEncoding wMax (.control c (pushWord wMax arg)) = decodeControl c arg := by
  simp [decodeEncoding, pushWord, Nat.mod_eq_of_lt h]

theorem decode_of_encode_eq_command {wMax w : Nat} {i : Instr} (hi : i.encodable wMax = true)
    (h : encode wMax i = .command w) : decode wMax w = i := by
  cases i with cases h
  | rst => exact decode_rst wMax 0
  | cfg iw ie ow oe => exact decode_cfg wMax iw ow ie oe
  | push arg => exact decode_pushWord (of_decide_eq_true hi)
  | endStream => exact decode_endStream wMax 0
  | reserved47 r => exact decode_reserved47 wMax r 0
  | reserved8F r => exact decode_reserved8F wMax r 0

theorem decodeEncoding_encode {wMax : Nat} {i : Instr} (hi : i.encodable wMax = true) :
    decodeEncoding wMax (encode wMax i) = .ok i := by
  rcases encode_cases wMax i with ⟨w, h⟩ | ⟨c, arg, hrow, h⟩
  · rw [h, decodeEncoding, decode_of_encode_eq_command hi h]
  · rw [h, decodeEncoding_control c (arg_lt_of_encodable hrow hi)]
    exact decodeControl_eq_ok_iff.mpr hrow

/-- Every encoding has `CW_BITS` bits (`00_scope.md` R7). -/
theorem encode_word_lt (wMax : Nat) (i : Instr) : (encode wMax i).word < 2 ^ Config.cwBits wMax := by
  cases i <;> exact commandWord_lt ..

/-- Settles O2: an encoding is a command word, decoded row by row, or a control word with a PUSH. -/
theorem decodeOfEncodeIsIdentity : Obligations.DecodeOfEncodeIsIdentity :=
  fun wMax i hi => ⟨decodeEncoding_encode hi, encode_word_lt wMax i⟩

/-! ## Encode of decode -/

/-- Settles O3, by the rows of the opcode map. -/
theorem encodeOfDecodeRestoresTheWord : Obligations.EncodeOfDecodeRestoresTheWord := by
  intro wMax w hw
  have harg := argField_lt wMax w
  rcases opcode_cases (opField wMax w) with hop | hop | hop | hop | ⟨r, hop⟩ | ⟨r, hop⟩ <;>
    rw [decode_eq_of_opField hop, hop]
  · rw [decode_rst]
    rfl
  · rw [decode_cfgWord harg, encode, cfgArg_fields]
    rfl
  · have hword : pushWord wMax (argField wMax w) = w := by
      rw [pushWord, ← hop, commandWord_fields hw]
    rw [← pushWord, decode_pushWord harg, encode, hword]
    rfl
  · rw [decode_endStream]
    rfl
  · obtain ⟨-, -, -, hne1, hne2, -⟩ := opcode47_fields r
    rw [decode_reserved47]
    exact congrArg Encoding.command ((if_neg hne2).trans (if_neg hne1)).symm
  · obtain ⟨-, -, -, hne1, hne2, -⟩ := opcode8F_fields r
    rw [decode_reserved8F]
    exact congrArg Encoding.command ((if_neg hne2).trans (if_neg hne1)).symm

/-! ## The opcode map and the fields -/

/-- The fields of a CFG at their bits of the command word (`30_encoding.md` R53). -/
theorem cfg_fields_toNat (wMax w : Nat) :
    (inWidthField (argField wMax w)).toNat = w % 2 ^ 32 ∧
    (outWidthField (argField wMax w)).toNat = w / 2 ^ 32 % 2 ^ 32 ∧
    (inEndField (argField wMax w)).code.toNat = w / 2 ^ 64 % 4 ∧
    (outEndField (argField wMax w)).code.toNat = w / 2 ^ 66 % 4 := by
  have hbits := argBits_ge wMax
  rw [inWidthField_toNat, outWidthField_toNat, inEndField_code_toNat, outEndField_code_toNat]
  refine ⟨?_, argField_div_mod w (by omega), argField_div_mod (len := 2) w (by omega),
    argField_div_mod (len := 2) w (by omega)⟩
  simpa using argField_div_mod w (lo := 0) (len := 32) (by omega)

/-- Settles O4: the number above the operand is the opcode, and each row's word decodes to the row. -/
theorem opcodeMapAndFields : Obligations.OpcodeMapAndFields := by
  intro wMax w hw
  have harg := argField_lt wMax w
  rw [← opField_toNat hw]
  refine ⟨fun h => ?rst, fun h => ?cfg, fun h => ?push, fun h => ?endStream, fun hlo hhi => ?reserved47,
    fun hlo => ?reserved8F⟩
  case rst =>
    have hop : opField wMax w = 0x0#4 := BitVec.eq_of_toNat_eq h
    rw [decode_eq_of_opField hop, decode_rst]
  case cfg =>
    have hop : opField wMax w = 0x1#4 := BitVec.eq_of_toNat_eq h
    exact ⟨_, _, _, _, (decode_eq_of_opField hop).trans (decode_cfgWord harg), cfg_fields_toNat wMax w⟩
  case push =>
    have hop : opField wMax w = 0x2#4 := BitVec.eq_of_toNat_eq h
    exact (decode_eq_of_opField hop).trans (decode_pushWord harg)
  case endStream =>
    have hop : opField wMax w = 0x3#4 := BitVec.eq_of_toNat_eq h
    rw [decode_eq_of_opField hop, decode_endStream]
  case reserved47 =>
    obtain ⟨r, hop, hr⟩ := exists_opcode47 hlo hhi
    exact ⟨r, (decode_eq_of_opField hop).trans (decode_reserved47 ..), hr⟩
  case reserved8F =>
    obtain ⟨r, hop, hr⟩ := exists_opcode8F hlo
    exact ⟨r, (decode_eq_of_opField hop).trans (decode_reserved8F ..), hr⟩

/-! ## Words of the spec, and all control words -/

/-- Settles O1, by evaluating the decoder on each word. -/
theorem specWordsDecode : Obligations.SpecWordsDecode := by
  refine ⟨?_, ?_, ?_, ?_, ?_, ?_, ?_, ?_, ?_, ?_⟩ <;> decide

/-- Settles O5. -/
theorem controlWordsSelectRows : Obligations.ControlWordsSelectRows := by
  intro arg u b l
  obtain ⟨-, himp, hexp, hnone⟩ := decodeControl_eq u b l arg
  exact ⟨(decodeControl_eq u b false arg).1, (decodeControl_eq u b true arg).1, himp, hexp, hnone⟩

end Sys2Proof
end

section
/-! Proofs of `30_encoding.md`: what a row of format CTRL is to the machine (R58), and the status word (R59). -/

namespace Sys2Proof.Machine

/-! ## Executing a row of format CTRL -/

theorem pushTested_congr {arg : Nat} {s : State} {path path' : Result} (h : s.phase = .run → path = path') :
    pushTested arg s path = pushTested arg s path' := by
  cases hp : s.phase with
  | run => rw [h hp]
  | err => rw [pushTested_err hp, pushTested_err hp]
  | idle => rw [pushTested_closed (.inl hp), pushTested_closed (.inl hp)]
  | done => rw [pushTested_closed (.inr hp), pushTested_closed (.inr hp)]

theorem underControl_of_eq {c : ControlWord} {s : State} (path : Result) (h : s.controlWord = c) :
    underControl c s path = path := if_pos h

theorem underControl_of_ne {c : ControlWord} {s : State} (path : Result) (h : s.controlWord ≠ c) :
    underControl c s path = .fault .controlMismatch := if_neg h

theorem underControl_congr {c : ControlWord} {s : State} {path path' : Result}
    (h : s.controlWord = c → path = path') : underControl c s path = underControl c s path' := by
  by_cases hc : s.controlWord = c
  · rw [h hc]
  · rw [underControl_of_ne path hc, underControl_of_ne path' hc]

/-- Under its control word, the row's data path is the one that `MODE` selects. -/
theorem pushTested_underControl_eq {arg : Nat} {c : ControlWord} {s : State} {path : State → State}
    (hpath : s.controlWord = c → pushPath arg s = path s) :
    pushTested arg s (underControl c s (.next (path s))) =
      pushTested arg s (underControl c s (.next (pushPath arg s))) :=
  congrArg (pushTested arg s) (underControl_congr fun hc => congrArg Host.Outcome.next (hpath hc).symm)

/-- A row of format CTRL is a PUSH whose data path runs under the row's control word only. -/
theorem exec_controlRow {arg : Nat} {c : ControlWord} {i : Instr} (hrow : ControlRow arg c i) (s : State) :
    exec i s =
      pushTested arg s.takeCommand (underControl c s.takeCommand (.next (pushPath arg s.takeCommand))) := by
  cases hrow with
  | eq u b =>
    exact pushTested_underControl_eq (path := pushEqPath arg) fun hc =>
      pushPath_of_eq arg (Mode.code_injective (m' := .eq) (mode_code_of_controlWord hc))
  | imp u b l =>
    exact pushTested_underControl_eq (path := pushImpPath arg) fun hc =>
      pushPath_of_imp arg (Mode.code_injective (m' := .imp) (mode_code_of_controlWord hc))
  | exp u b l =>
    exact pushTested_underControl_eq (path := pushExpPath arg) fun hc =>
      pushPath_of_exp arg (Mode.code_injective (m' := .exp) (mode_code_of_controlWord hc))

/-- A PUSH is the row whose control word the machine has in phase RUN; in the other phases no data path runs. -/
theorem exec_push_eq_controlRow {arg : Nat} {c : ControlWord} {i : Instr} {s : State} (hrow : ControlRow arg c i)
    (hc : s.phase = .run → s.controlWord = c) : exec (.push arg) s = exec i s := by
  rw [exec_controlRow hrow]
  exact pushTested_congr fun hp => (underControl_of_eq (s := s.takeCommand) _ (hc hp)).symm

/-- Settles O42: a control word decodes to a row only as the row's own. -/
theorem controlWordSelectsThePush : Obligations.ControlWordSelectsThePush :=
  fun _ _ _ h => exec_push_eq_controlRow (decodeControl_eq_ok_iff.mp h) fun _ => rfl

theorem exec_controlRow_of_ne {arg : Nat} {c : ControlWord} {i : Instr} {s : State} (hrow : ControlRow arg c i)
    (hp : s.phase = .run) (hf : arg < 2 ^ s.inWidth.toNat) (hc : s.controlWord ≠ c) :
    exec i s = .fault .controlMismatch := by
  rw [exec_controlRow hrow, pushTested_run (s := s.takeCommand) hp hf]
  exact underControl_of_ne _ hc

/-- Settles O44, each clause a row. -/
theorem controlRowStopsUnderAnotherControlWord : Obligations.ControlRowStopsUnderAnotherControlWord :=
  fun _ _ u b l hp hf =>
    ⟨exec_controlRow_of_ne (.eq u b) hp hf, exec_controlRow_of_ne (.imp u b l) hp hf,
      exec_controlRow_of_ne (.exp u b l) hp hf⟩

/-! ## A placed instruction -/

theorem step_place (s : State) (w : Nat) : step (s.place w) = exec (decode s.wMax w) (s.place w) := rfl

@[simp] theorem State.selectRow_wMax (s : State) (i : Instr) : (s.selectRow i).wMax = s.wMax := by
  cases i with
  | pushEq _ _ _ | pushImp _ _ _ _ | pushExp _ _ _ _ => exact State.configure_wMax ..
  | rst | cfg _ _ _ _ | push _ | endStream | reserved47 _ | reserved8F _ => rfl

theorem step_placeInstr (s : State) (i : Instr) :
    step (s.placeInstr i) = exec (decode s.wMax (encode s.wMax i).word) (s.placeInstr i) := by
  rw [State.placeInstr, step_place, State.selectRow_wMax]

/-- The control word of an accepted configuration (`46_dispatcher.md` R132, R133). -/
theorem configure_controlWord {s : State} {iw ow : Width} {ie oe : Endianness}
    (hp : (s.configure iw ie ow oe).phase = .run) :
    (s.configure iw ie ow oe).controlWord =
      controlWordOf (select iw.toNat ow.toNat).1.code (unitOrdersDiffer ie oe) (bitOrdersDiffer ie oe)
        (wideIsLittle (select iw.toNat ow.toNat).1 ie oe) := by
  by_cases h : validate s.wMax iw.toNat ow.toNat = .none
  · rw [configure_of_legal ie oe h]
    rfl
  · rw [(configure_phase s iw ie ow oe).2, if_neg h] at hp
    cases hp

/-- The configuration under which a row is placed has the row's control word, where `W_MAX` accepts its widths
(log entry 5). -/
theorem selectRow_controlWord {arg : Nat} {c : ControlWord} {i : Instr} {s : State} (hrow : ControlRow arg c i)
    (hp : (s.selectRow i).phase = .run) : (s.selectRow i).controlWord = c := by
  cases hrow with
  | eq u b | imp u b l | exp u b l =>
    refine (configure_controlWord hp).trans ?_
    clear hp
    decide +revert

/-- Settles O45: a command word decodes to its instruction, and a row is placed as a PUSH under its control word. -/
theorem placedInstructionRuns : Obligations.PlacedInstructionRuns := by
  intro s i hi
  rw [step_placeInstr]
  rcases encode_cases s.wMax i with ⟨w, h⟩ | ⟨c, arg, hrow, h⟩ <;> rw [h, Encoding.word]
  · rw [decode_of_encode_eq_command hi h]
  · rw [decode_pushWord (arg_lt_of_encodable hrow hi)]
    exact exec_push_eq_controlRow hrow (selectRow_controlWord hrow)

/-! ## Values that never occur -/

/-- The largest code of a cause (`60_exceptions.md` R191). -/
theorem Cause.code_le (c : Cause) : c.code ≤ 8 := by
  cases c <;> decide

/-- The cause is 0 exactly outside phase ERR (`10_state.md` R18, R22). -/
theorem cause_eq_none_iff {s : State} (h : s.RegistersOk) : s.cause = .none ↔ s.phase ≠ .err := by
  obtain ⟨hidle, herr, hopen, -⟩ := h
  cases hp : s.phase with
  | idle =>
    rw [hidle hp]
    exact iff_of_true (State.clearRegisters_cause s) nofun
  | run => exact iff_of_true (hopen (.inl hp)).1 nofun
  | done => exact iff_of_true (hopen (.inr hp)).1 nofun
  | err => exact iff_of_false (herr hp).1 (not_not_intro rfl)

theorem controlWord_eq_zero {s : State} (hmode : s.mode = .none) (hdu : s.du = false) (hdb : s.db = false)
    (hlw : s.lw = false) : s.controlWord = 0 := by
  rw [State.controlWord, hmode, hdu, hdb, hlw]
  rfl

/-- Outside an open or finished call the control word is 00000 (`10_state.md` R22). -/
theorem controlWord_eq_zero_of_not_configured {s : State} (h : s.RegistersOk) (hp : ¬s.configured) :
    s.controlWord = 0 := by
  obtain ⟨hidle, herr, -⟩ := h
  cases hphase : s.phase with
  | idle =>
    rw [hidle hphase]
    exact controlWord_eq_zero s.clearRegisters_mode s.clearRegisters_du s.clearRegisters_db s.clearRegisters_lw
  | run => exact absurd (.inl hphase) hp
  | done => exact absurd (.inr hphase) hp
  | err =>
    obtain ⟨-, hmode, hdu, hdb, hlw, -⟩ := herr hphase
    exact controlWord_eq_zero hmode hdu hdb hlw

/-- The control word of a call is that of a row: `MODE` is not NONE, and in mode EQ `LW` is 0 (`10_state.md` R14). -/
theorem controlRow_of_configured {s : State} (h : s.Inv) (hp : s.configured) (arg : Nat) :
    ∃ i, ControlRow arg s.controlWord i := by
  obtain ⟨⟨-, -, hopen, -⟩, hcontrols, -, -⟩ := h
  obtain ⟨-, hmode, -, -⟩ := hopen hp
  obtain ⟨-, -, -, hlw⟩ := hcontrols hp
  rw [State.controlWord]
  cases hm : s.mode with
  | none => exact absurd hm hmode
  | eq =>
    rw [hlw, hm]
    exact ⟨_, .eq s.du s.db⟩
  | imp => exact ⟨_, .imp s.du s.db s.lw⟩
  | exp => exact ⟨_, .exp s.du s.db s.lw⟩

/-- Settles O53. -/
theorem reservedValuesNeverOccur : Obligations.ReservedValuesNeverOccur := by
  intro s h
  refine ⟨Cause.code_le s.cause, cause_eq_none_iff h.1, ?_⟩
  by_cases hp : s.configured
  · refine .inr fun arg => ?_
    obtain ⟨i, hrow⟩ := controlRow_of_configured h hp arg
    exact ⟨i, decodeControl_eq_ok_iff.mpr hrow⟩
  · exact .inl (controlWord_eq_zero_of_not_configured h.1 hp)

/-! ## The status word -/

/-- Settles O52: a field of the concatenation is found above the bits that follow it. -/
theorem statusWordFields : Obligations.StatusWordFields := by
  refine ⟨rfl, rfl, rfl, fun s => ⟨?phase, ?cause, ?mode, ?du, ?db, ?lw, ?reserved, ?k⟩⟩
  case phase | cause | mode | k =>
    simp only [State.statusWord, BitVec.extractLsb'_append_eq_of_le, BitVec.extractLsb'_append_eq_right,
      BitVec.extractLsb'_eq_self, Nat.reduceLeDiff, Nat.reduceSub]
  case reserved =>
    simp only [State.statusWord, BitVec.extractLsb'_append_eq_of_le, BitVec.extractLsb'_append_eq_right,
      Nat.reduceLeDiff, Nat.reduceSub]
    rfl
  case du | db | lw =>
    simp only [State.statusWord, BitVec.getLsbD_append]
    simp

end Sys2Proof.Machine
end

section
/-! Proofs of `40_endianness_descriptor.md`: the field tests on the codes (R71), and `DU` and `DB` from the codes (R75). -/

namespace Sys2Proof.Machine

/-! ## The field tests on the codes -/

theorem unitOrder_code_getLsbD (u : UnitOrder) : u.code.getLsbD 0 = (u == .littleUnit) := by
  cases u <;> rfl

theorem bitOrder_code_getLsbD (b : BitOrder) : b.code.getLsbD 0 = (b == .littleBit) := by
  cases b <;> rfl

/-- `unit_is_little` is bit 0 of the code (`40_endianness_descriptor.md` R71): the low part of the concatenation. -/
theorem code_getLsbD_zero (e : Endianness) : e.code.getLsbD 0 = unitIsLittle e := by
  rw [Endianness.code, BitVec.getLsbD_append, if_pos Nat.zero_lt_one, unitOrder_code_getLsbD, unitIsLittle]

/-- `bit_is_little` is bit 1 of the code (`40_endianness_descriptor.md` R71): the high part of the concatenation. -/
theorem code_getLsbD_one (e : Endianness) : e.code.getLsbD 1 = bitIsLittle e := by
  rw [Endianness.code, BitVec.getLsbD_append, if_neg (Nat.lt_irrefl 1), Nat.sub_self, bitOrder_code_getLsbD,
    bitIsLittle]

/-! ## `DU` and `DB` -/

/-- Settles O6: the orders differ as the field tests do, and the field tests are the bits of the codes. -/
theorem ordersDifferIsXorOfCodes : Obligations.OrdersDifferIsXorOfCodes := by
  intro ie oe
  constructor
  · rw [code_getLsbD_zero, code_getLsbD_zero, unitOrdersDiffer_eq]
  · rw [code_getLsbD_one, code_getLsbD_one, bitOrdersDiffer_eq]

end Sys2Proof.Machine
end

section
/-! Proofs of `41_reversers.md`: both reversers are entries of `xform`, and applications of `xform` compose by the
exclusive or of what they select. -/

namespace Sys2Proof.Machine

/-! ## Composing `xform` -/

theorem xformSource_div (du db : Bool) (n t : Nat) :
    xformSource du db n t / 8 = if du then n - 1 - t / 8 else t / 8 := by
  cases db <;> simp only [xformSource, if_true, if_false, Bool.false_eq_true] <;> omega

theorem xformSource_mod (du db : Bool) (n t : Nat) :
    xformSource du db n t % 8 = if db then 7 - t % 8 else t % 8 := by
  cases db <;> simp only [xformSource, if_true, if_false, Bool.false_eq_true] <;> omega

/-- The place of the unit and the place of the bit in its unit compose apart: the reason both reversers commute
(`41_reversers.md` R83). -/
theorem xformSource_comp {du db du' db' : Bool} {n t : Nat} (ht : t < 8 * n) :
    xformSource du db n (xformSource du' db' n t) = xformSource (du ^^ du') (db ^^ db') n t := by
  have hunit : (if du then n - 1 - xformSource du' db' n t / 8 else xformSource du' db' n t / 8) =
      if (du ^^ du') then n - 1 - t / 8 else t / 8 := by
    have hback : n - 1 - (n - 1 - t / 8) = t / 8 := by omega
    rw [xformSource_div]
    cases du <;> cases du' <;> simp [hback]
  have hbit : (if db then 7 - xformSource du' db' n t % 8 else xformSource du' db' n t % 8) =
      if (db ^^ db') then 7 - t % 8 else t % 8 := by
    have hback : 7 - (7 - t % 8) = t % 8 := by omega
    rw [xformSource_mod]
    cases db <;> cases db' <;> simp [hback]
  rw [xformSource, hunit, hbit, xformSource]

theorem xform_xform_eq_xor {v n : Nat} (hv : v < 2 ^ (8 * n)) (du db du' db' : Bool) :
    xform (xform v (8 * n) du db) (8 * n) du' db' = xform v (8 * n) (du ^^ du') (db ^^ db') := by
  refine Nat.eq_of_testBit_eq fun t => ?_
  rw [xform_testBit (xform_lt hv du db), xform_testBit hv, xform_testBit hv]
  by_cases ht : t < 8 * n
  · simp [ht, xformSource_lt ht, xformSource_comp ht]
  · simp [ht]

theorem xform_zero (n : Nat) (du db : Bool) : xform 0 (8 * n) du db = 0 :=
  Nat.zero_of_testBit_eq_false fun t => by
    rw [xform_testBit (Nat.two_pow_pos _), Nat.zero_testBit, Bool.and_false]

theorem xform_ones (n : Nat) (du db : Bool) : xform (2 ^ (8 * n) - 1) (8 * n) du db = 2 ^ (8 * n) - 1 := by
  refine Nat.eq_of_testBit_eq fun t => ?_
  rw [xform_testBit (Nat.sub_lt (Nat.two_pow_pos _) Nat.one_pos), Nat.testBit_two_pow_sub_one,
    Nat.testBit_two_pow_sub_one]
  by_cases ht : t < 8 * n
  · simp [ht, xformSource_lt ht]
  · simp [ht]

/-- With one unit there is no unit order (`41_reversers.md` R84). -/
theorem xform_one_unit {v : Nat} (hv : v < 2 ^ (8 * 1)) (du db : Bool) :
    xform v (8 * 1) du db = xform v (8 * 1) false db := by
  refine Nat.eq_of_testBit_eq fun t => ?_
  rw [xform_testBit hv, xform_testBit hv]
  by_cases ht : t < 8 * 1
  · have hsource : xformSource du db 1 t = xformSource false db 1 t := by
      cases du
      · rfl
      · simp only [xformSource, if_true, if_false, Bool.false_eq_true]
        omega
    rw [hsource]
  · simp [ht]

/-- Both reversers together count the bits from the other end (`41_reversers.md` R83). -/
theorem xformSource_both {n t : Nat} (ht : t < 8 * n) : xformSource true true n (8 * n - 1 - t) = t := by
  simp only [xformSource, if_true]
  omega

theorem xform_bijOn (n : Nat) (du db : Bool) :
    Set.BijOn (fun v => xform v (8 * n) du db) {v | v < 2 ^ (8 * n)} {v | v < 2 ^ (8 * n)} :=
  have hinv : Set.LeftInvOn (fun v => xform v (8 * n) du db) (fun v => xform v (8 * n) du db)
      {v | v < 2 ^ (8 * n)} := fun _ hv => xform_xform hv du db
  have hmaps : Set.MapsTo (fun v => xform v (8 * n) du db) {v | v < 2 ^ (8 * n)} {v | v < 2 ^ (8 * n)} :=
    fun _ hv => xform_lt hv du db
  Set.InvOn.bijOn ⟨hinv, hinv⟩ hmaps hmaps

/-! ## The reversers as entries of `xform` -/

theorem revUnits_eq_xform (v w : Nat) : revUnits v w = xform v w true false := rfl

theorem revBits_eq_xform (v w : Nat) : revBits v w = xform v w false true := rfl

theorem exists_units_of_isChunk {v w : Nat} (h : isChunk v w = true) : ∃ n, 0 < n ∧ w = 8 * n ∧ v < 2 ^ (8 * n) := by
  obtain ⟨hw, hv⟩ := isChunk_iff.mp h
  obtain ⟨n, hn, rfl⟩ := isChunkWidth_iff.mp hw
  exact ⟨n, hn, rfl, hv⟩

theorem xform?_eq {v w : Nat} (h : isChunk v w = true) (du db : Bool) : xform? v w du db = some (xform v w du db) :=
  if_pos h

/-! ## Units of the results -/

theorem unitOf_revUnits {v n j : Nat} (hj : j < n) :
    unitOf (revUnits v (8 * n)) j = unitOf v (n - 1 - j) := by
  refine Nat.eq_of_testBit_eq fun t => ?_
  rw [unitOf_testBit, unitOf_testBit, revUnits_testBit]
  by_cases ht : t < 8
  · rw [decide_eq_true (show 8 * j + t < 8 * n by omega), show (8 * j + t) / 8 = j by omega,
      show (8 * j + t) % 8 = t by omega, Bool.true_and]
  · simp [ht]

theorem revBits_testBit_unit {v n j t : Nat} (hj : j < n) (ht : t < 8) :
    (revBits v (8 * n)).testBit (8 * j + t) = v.testBit (8 * j + (7 - t)) := by
  rw [revBits_testBit, decide_eq_true (show 8 * j + t < 8 * n by omega), show (8 * j + t) / 8 = j by omega,
    show (8 * j + t) % 8 = t by omega, Bool.true_and]

theorem unitOf_revBits {v n j : Nat} (hj : j < n) :
    unitOf (revBits v (8 * n)) j = bitrevUnit (unitOf v j) := by
  refine Nat.eq_of_testBit_eq fun t => ?_
  rw [unitOf_testBit, bitrevUnit_testBit, unitOf_testBit]
  by_cases ht : t < 8
  · rw [revBits_testBit_unit hj ht, decide_eq_true (show 7 - t < 8 by omega), Bool.true_and]
  · simp [ht]

theorem revUnits_one_unit {v : Nat} (hv : v < 2 ^ (8 * 1)) : revUnits v (8 * 1) = v :=
  xform_one_unit hv true false

/-- One unit is its own unit 0, so the bit reverser is `bitrev_unit` (`41_reversers.md` R82). -/
theorem revBits_one_unit (v : Nat) : revBits v (8 * 1) = bitrevUnit v := by
  refine Nat.eq_of_testBit_eq fun t => ?_
  rw [revBits_testBit, bitrevUnit_testBit]
  by_cases ht : t < 8
  · rw [show t / 8 = 0 by omega, show t % 8 = t by omega, Nat.mul_zero, Nat.zero_add]
  · simp [ht]

/-! ## The statements -/

/-- Settles O8: bit `7 - t` is read from bit `7 - (7 - t)`, which is bit `t`. -/
theorem bitReversalOfOneUnit : Obligations.BitReversalOfOneUnit := by
  intro b hb
  refine ⟨bitrevUnit b, if_pos hb, bitrevUnit_lt b, fun t ht => ?_⟩
  rw [bitrevUnit_testBit, decide_eq_true (show 7 - t < 8 by omega), Bool.true_and, show 7 - (7 - t) = t by omega]

/-- Settles O7: the units by their bits, the corner cases as those of `xform`. -/
theorem unitReverserPlacesUnits : Obligations.UnitReverserPlacesUnits := by
  intro v w h
  obtain ⟨n, -, rfl, hv⟩ := exists_units_of_isChunk h
  refine ⟨revUnits v (8 * n), if_pos h, xform_lt hv true false, ?units, ?oneUnit, ?zero, ?ones⟩
  case units =>
    rw [Nat.mul_div_cancel_left n (by decide : 0 < 8)]
    exact fun j hj => unitOf_revUnits hj
  case oneUnit =>
    intro hw
    obtain rfl : n = 1 := by omega
    exact revUnits_one_unit hv
  case zero =>
    rintro rfl
    exact xform_zero n true false
  case ones =>
    rintro rfl
    exact xform_ones n true false

/-- Settles O9: the units by their bits, the corner cases as those of `xform` and of one unit. -/
theorem bitReverserWorksPerUnit : Obligations.BitReverserWorksPerUnit := by
  intro v w h
  obtain ⟨n, -, rfl, hv⟩ := exists_units_of_isChunk h
  rw [Nat.mul_div_cancel_left n (by decide : 0 < 8)]
  refine ⟨revBits v (8 * n), if_pos h, xform_lt hv false true, fun j hj => unitOf_revBits hj,
    fun j hj t ht => revBits_testBit_unit hj ht, ?oneUnit, ?zero, ?ones⟩
  case oneUnit =>
    intro hw
    obtain rfl : n = 1 := by omega
    exact revBits_one_unit v
  case zero =>
    rintro rfl
    exact xform_zero n false true
  case ones =>
    rintro rfl
    exact xform_ones n false true

/-- The laws of `41_reversers.md` R83 on one chunk: each is a composition of `xform`. -/
theorem reverser_laws_of_chunk {v n : Nat} (hv : v < 2 ^ (8 * n)) :
    revUnits (revUnits v (8 * n)) (8 * n) = v ∧ revBits (revBits v (8 * n)) (8 * n) = v ∧
    revUnits (revBits v (8 * n)) (8 * n) = revBits (revUnits v (8 * n)) (8 * n) ∧
    ∀ t < 8 * n, (revBits (revUnits v (8 * n)) (8 * n)).testBit (8 * n - 1 - t) = v.testBit t := by
  simp only [revUnits_eq_xform, revBits_eq_xform]
  refine ⟨xform_xform hv true false, xform_xform hv false true, ?commute, fun t ht => ?reverse⟩
  case commute =>
    rw [xform_xform_eq_xor hv, xform_xform_eq_xor hv]
    rfl
  case reverse =>
    rw [xform_xform_eq_xor hv, Bool.xor_false, Bool.false_xor, xform_testBit hv, xformSource_both ht,
      decide_eq_true (show 8 * n - 1 - t < 8 * n by omega), Bool.true_and]

/-- Settles O10: on each chunk the laws compose entries of `xform`, and an entry that undoes itself is a bijection. -/
theorem reverserLaws : Obligations.ReverserLaws := by
  intro w hw
  obtain ⟨n, -, rfl⟩ := isChunkWidth_iff.mp hw
  exact ⟨fun v hv => reverser_laws_of_chunk hv, xform_bijOn n true false, xform_bijOn n false true,
    xform_zero n true false, xform_zero n false true, xform_ones n true false, xform_ones n false true⟩

/-- Settles O11: the table by the definition of `xform`, the rest from its composition. -/
theorem xformSelectsAndUndoesItself : Obligations.XformSelectsAndUndoesItself := by
  intro v w h
  refine ⟨xform?_eq h false false, xform?_eq h true false, xform?_eq h false true, xform?_eq h true true,
    fun du db => ?_⟩
  obtain ⟨n, -, rfl, hv⟩ := exists_units_of_isChunk h
  refine ⟨xform_xform hv du db, xform_lt hv du db, fun hw => ?_⟩
  obtain rfl : n = 1 := by omega
  exact xform_one_unit hv du db

end Sys2Proof.Machine
end

section
/-! Proofs of `42_shift_resolver.md`: the shift is a slot counted in small widths, so the windows are those of a
division by the small width. -/

namespace Sys2Proof.Machine

/-! ## Slots -/

theorem slot_big_eq_little_reversed (k i : Nat) : slot false k i = slot true k (k - 1 - i) := rfl

/-- A slot lies in its group with its whole width. -/
theorem slot_mul_add_le {lw : Bool} {k i : Nat} (h : i < k) (s : Nat) : slot lw k i * s + s ≤ k * s := by
  rw [← Nat.succ_mul]
  exact Nat.mul_le_mul_right s (slot_lt h)

theorem eq_slot_iff {lw : Bool} {k i j : Nat} (hi : i < k) (hj : j < k) : i = slot lw k j ↔ slot lw k i = j :=
  ⟨fun h => by rw [h, slot_slot hj], fun h => by rw [← h, slot_slot hi]⟩

/-! ## The shift of a sub-chunk index -/

/-- The items of R94 about one shift. -/
theorem placeShift_bounds {lw : Bool} {n k i : Nat} (h : i < k) :
    8 * n + i * (8 * n) ≤ k * (8 * n) ∧ placeShift lw i (8 * n) (k * (8 * n)) ≤ k * (8 * n) - 8 * n ∧
    placeShift lw i (8 * n) (k * (8 * n)) % (8 * n) = 0 ∧ placeShift lw i (8 * n) (k * (8 * n)) % 8 = 0 := by
  rw [placeShift_eq h]
  refine ⟨?fits, Nat.le_sub_of_add_le (slot_mul_add_le h (8 * n)), Nat.mul_mod_left _ _, ?units⟩
  case fits =>
    rw [Nat.add_comm]
    exact slot_mul_add_le (lw := true) h (8 * n)
  case units =>
    rw [Nat.mul_left_comm]
    exact Nat.mul_mod_right 8 _

/-- A bit lies in the window of a sub-chunk exactly when its quotient by the small width is the sub-chunk's slot. -/
theorem mem_window_iff {lw : Bool} {s k i b : Nat} (hs : 0 < s) (h : i < k) :
    (placeShift lw i s (k * s) ≤ b ∧ b < placeShift lw i s (k * s) + s) ↔ slot lw k i = b / s := by
  rw [placeShift_eq h, ← Nat.succ_mul, ← Nat.le_div_iff_mul_le hs, ← Nat.div_lt_iff_lt_mul hs]
  omega

/-- The windows cover the wide chunk and do not overlap (`42_shift_resolver.md` R94). -/
theorem existsUnique_window (lw : Bool) {s k b : Nat} (hs : 0 < s) (hb : b < k * s) :
    ∃! i, i < k ∧ placeShift lw i s (k * s) ≤ b ∧ b < placeShift lw i s (k * s) + s := by
  have hj : b / s < k := (Nat.div_lt_iff_lt_mul hs).mpr hb
  refine ⟨slot lw k (b / s), ⟨slot_lt hj, (mem_window_iff hs (slot_lt hj)).mpr (slot_slot hj)⟩, ?_⟩
  rintro i ⟨hi, hmem⟩
  exact (eq_slot_iff hi hj).mpr ((mem_window_iff hs hi).mp hmem)

theorem placeShift_big_eq_little_reversed {s k i : Nat} (h : i < k) :
    placeShift false i s (k * s) = placeShift true (k - 1 - i) s (k * s) := by
  rw [placeShift_eq h, placeShift_eq (show k - 1 - i < k by omega), slot_big_eq_little_reversed]

theorem placeShift_single (lw : Bool) (s : Nat) : placeShift lw 0 s (1 * s) = 0 := by
  have hslot : slot lw 1 0 = 0 := Nat.lt_one_iff.mp (slot_lt Nat.one_pos)
  rw [placeShift_eq Nat.one_pos, hslot, Nat.zero_mul]

/-! ## The shifts of the two directions -/

theorem shiftImp?_eq {i iw ow : Nat} (hr : isRatio iw ow = true) (hi : i < ow / iw) (oe : Endianness) :
    shiftImp? i iw ow oe = some (placeShift (unitIsLittle oe) i iw ow) := by
  simp [shiftImp?, shiftImp, hr, hi]

/-- The exploder shift is the imploder shift with the widths exchanged (`42_shift_resolver.md` R93). -/
theorem shiftExp?_eq_shiftImp? (i iw ow : Nat) (ie : Endianness) : shiftExp? i iw ow ie = shiftImp? i ow iw ie := rfl

/-- The imploder shift by the unit order of its output (`42_shift_resolver.md` R91). -/
theorem shiftImp?_by_unit_order {i iw ow : Nat} (hr : isRatio iw ow = true) (hi : i < ow / iw) (b : BitOrder) :
    shiftImp? i iw ow ⟨.littleUnit, b⟩ = some (i * iw) ∧
    shiftImp? i iw ow ⟨.bigUnit, b⟩ = some (ow - (iw + i * iw)) :=
  ⟨shiftImp?_eq hr hi _, shiftImp?_eq hr hi _⟩

/-! ## The statements -/

/-- Settles O13: both directions are one computation, and the unit order alone selects its branch. -/
theorem shiftFollowsWideUnitOrder : Obligations.ShiftFollowsWideUnitOrder := by
  intro i iw ow b
  refine ⟨fun hr hi => shiftImp?_by_unit_order hr hi b, fun hr hi => ?_⟩
  rw [shiftExp?_eq_shiftImp?, shiftExp?_eq_shiftImp?]
  exact shiftImp?_by_unit_order hr hi b

/-- Settles O12: with the big width written as `k` small ones, each item is a fact about slots. -/
theorem shiftArithmetic : Obligations.ShiftArithmetic := by
  intro small big hr
  obtain ⟨n, k, hn, -, rfl, rfl⟩ := isRatio_iff.mp hr
  have hsmall : 0 < 8 * n := Nat.mul_pos (by decide) hn
  rw [Nat.mul_div_cancel k hsmall]
  refine ⟨fun lw i hi => placeShift_bounds hi, fun lw b hb => existsUnique_window lw hsmall hb,
    fun i hi => placeShift_big_eq_little_reversed hi, ?single⟩
  case single =>
    rintro rfl lw
    exact placeShift_single lw (8 * n)

end Sys2Proof.Machine
end

section
/-! Proofs of `43_imploder.md`: the imploder's OR is an addition while the window it fills is empty, so a whole group is
the sum of its placed chunks (R103), and that sum is their concatenation (R105). -/

namespace Sys2Proof.Machine

/-! ## An OR of disjoint numbers is their sum -/

theorem or_eq_add_of_disjoint {x y : Nat} (h : x &&& y = 0) : x ||| y = x + y := by
  have hx : x < 2 ^ (x + y) := Nat.lt_of_le_of_lt (Nat.le_add_right x y) Nat.lt_two_pow_self
  have hy : y < 2 ^ (x + y) := Nat.lt_of_le_of_lt (Nat.le_add_left y x) Nat.lt_two_pow_self
  have hadd := BitVec.add_eq_or_of_and_eq_zero (BitVec.ofNatLT x hx) (BitVec.ofNatLT y hy)
    (BitVec.eq_of_toNat_eq (by simpa using h))
  have hnat := congrArg BitVec.toNat hadd
  rw [BitVec.toNat_add, BitVec.toNat_or, BitVec.toNat_ofNatLT, BitVec.toNat_ofNatLT,
    Nat.mod_eq_of_lt Nat.lt_two_pow_self] at hnat
  exact hnat.symm

/-- A chunk shifted into an empty window meets no one-bit there. -/
theorem and_shiftLeft_eq_zero_of_window {a v s j : Nat} (hv : v < 2 ^ s) (hempty : window a s j = 0) :
    a &&& v <<< (j * s) = 0 := by
  refine Nat.eq_of_testBit_eq fun t => ?_
  rw [Nat.testBit_and, Nat.testBit_shiftLeft, Nat.zero_testBit]
  by_cases hle : j * s ≤ t
  swap
  · simp [hle]
  by_cases hlt : t - j * s < s
  · have hbit : (window a s j).testBit (t - j * s) = false := by rw [hempty, Nat.zero_testBit]
    rw [window_testBit, decide_eq_true hlt, Bool.true_and, Nat.add_sub_cancel' hle] at hbit
    rw [hbit, Bool.false_and]
  · rw [testBit_of_lt hv (Nat.le_of_not_lt hlt), Bool.and_false, Bool.and_false]

/-! ## The imploder's loop as a sum -/

/-- The sum of the chunks `ts`, from sub-chunk `i` of a group on, each at the shift of its index. -/
def placedSum (wideLittle : Bool) (small big i : Nat) (ts : List Nat) : Nat :=
  ((ts.zipIdx i).map fun p => p.1 * 2 ^ placeShift wideLittle p.2 small big).sum

@[simp] theorem placedSum_nil (lw : Bool) (small big i : Nat) : placedSum lw small big i [] = 0 := rfl

@[simp] theorem placedSum_cons (lw : Bool) (small big i t : Nat) (ts : List Nat) :
    placedSum lw small big i (t :: ts) =
      t * 2 ^ placeShift lw i small big + placedSum lw small big (i + 1) ts := by
  simp [placedSum]

/-- One turn of the loop adds when the window of its sub-chunk is empty (`43_imploder.md` R103). -/
theorem implodeStep_eq_add {lw du db : Bool} {n k i acc x : Nat} (hi : i < k) (hx : x < 2 ^ (8 * n))
    (hempty : window acc (8 * n) (slot lw k i) = 0) :
    implodeStep lw du db (8 * n) (k * (8 * n)) i acc x =
      acc + xform x (8 * n) du db * 2 ^ placeShift lw i (8 * n) (k * (8 * n)) := by
  rw [implodeStep, placeShift_eq hi,
    or_eq_add_of_disjoint (and_shiftLeft_eq_zero_of_window (xform_lt hx du db) hempty), Nat.shiftLeft_eq]

/-- The loop adds the rest of a group while the windows still to come are empty. -/
theorem implodeFrom_eq_add {lw du db : Bool} {n k : Nat} (g : List Nat) :
    ∀ {i acc : Nat}, i + g.length ≤ k → (∀ x ∈ g, x < 2 ^ (8 * n)) →
      (∀ j, i ≤ j → j < k → window acc (8 * n) (slot lw k j) = 0) →
      implodeFrom lw du db (8 * n) (k * (8 * n)) i acc g =
        acc + placedSum lw (8 * n) (k * (8 * n)) i (g.map (xform · (8 * n) du db)) := by
  induction g with
  | nil => intro i acc _ _ _; rfl
  | cons x g ih =>
    intro i acc hlen hx hempty
    rw [List.length_cons] at hlen
    obtain ⟨hhead, htail⟩ := List.forall_mem_cons.mp hx
    have hi : i < k := by omega
    have hrest : ∀ j, i + 1 ≤ j → j < k →
        window (implodeStep lw du db (8 * n) (k * (8 * n)) i acc x) (8 * n) (slot lw k j) = 0 := fun j hle hj => by
      rw [window_implodeStep_of_ne hi hj (by omega) hhead, hempty j (by omega) hj]
    rw [implodeFrom, ih (by omega) htail hrest, implodeStep_eq_add hi hhead (hempty i (Nat.le_refl i) hi),
      List.map_cons, placedSum_cons, Nat.add_assoc]

/-- A whole group is the sum of its placed chunks. -/
theorem implodeGroup_eq_placedSum {n k : Nat} {g : List Nat} (ie oe : Endianness) (hlen : g.length = k)
    (hx : ∀ x ∈ g, x < 2 ^ (8 * n)) :
    implodeGroup g (8 * n) ie (k * (8 * n)) oe =
      placedSum (unitIsLittle oe) (8 * n) (k * (8 * n)) 0 (g.map (convertEqual · (8 * n) ie oe)) := by
  rw [implodeGroup, implodeFrom_eq_add g (by omega) hx fun _ _ _ => by simp [window], Nat.zero_add]
  rfl

theorem implodeGroup_lt {n k : Nat} {g : List Nat} (ie oe : Endianness) (hlen : g.length = k)
    (hx : ∀ x ∈ g, x < 2 ^ (8 * n)) : implodeGroup g (8 * n) ie (k * (8 * n)) oe < 2 ^ (k * (8 * n)) :=
  implodeFrom_lt g (by omega) hx (Nat.two_pow_pos _)

theorem implodeGroup?_eq {iw ow : Nat} {g : List Nat} (ie oe : Endianness) (hr : isRatio iw ow = true)
    (hlen : g.length = ow / iw) (hx : ∀ x ∈ g, x < 2 ^ iw) :
    implodeGroup? g iw ie ow oe = some (implodeGroup g iw ie ow oe) := by
  obtain ⟨n, -, hn, -, rfl, -⟩ := isRatio_iff.mp hr
  have hchunks : g.all (isChunk · (8 * n)) = true :=
    List.all_eq_true.mpr fun x h => isChunk_iff.mpr ⟨isChunkWidth_iff.mpr ⟨n, hn, rfl⟩, hx x h⟩
  simp only [implodeGroup?, hr, hlen, hchunks, decide_true, Bool.and_self, if_true]

/-! ## The sum as a concatenation -/

/-- Chunks placed from the most significant slot down are concatenated in order. -/
theorem foldl_eq_placedSum_big (s : Nat) (ts : List Nat) :
    ∀ i a : Nat, ts.foldl (fun a t => a * 2 ^ s + t) a =
      a * 2 ^ (ts.length * s) + placedSum false s ((i + ts.length) * s) i ts := by
  induction ts with
  | nil => simp
  | cons t ts ih =>
    intro i a
    have hshift : placeShift false i s ((i + (ts.length + 1)) * s) = ts.length * s := by
      rw [placeShift_eq (by omega), slot, if_neg Bool.false_ne_true,
        show i + (ts.length + 1) - 1 - i = ts.length by omega]
    rw [List.foldl_cons, ih (i + 1), List.length_cons, placedSum_cons, hshift,
      show i + 1 + ts.length = i + (ts.length + 1) by omega, Nat.succ_mul, Nat.pow_add]
    ring

/-- Chunks placed from the least significant slot up are concatenated in reverse. -/
theorem foldr_eq_placedSum_little (s big : Nat) (ts : List Nat) :
    ∀ i : Nat, ts.foldr (fun t a => a * 2 ^ s + t) 0 * 2 ^ (i * s) = placedSum true s big i ts := by
  induction ts with
  | nil => simp
  | cons t ts ih =>
    intro i
    have hshift : placeShift true i s big = i * s := rfl
    rw [List.foldr_cons, placedSum_cons, ← ih (i + 1), hshift, Nat.succ_mul, Nat.pow_add]
    ring

/-- The unit order of the wide side fixes the reading order of the concatenation (`43_imploder.md` R105). -/
theorem placedSum_eq_concat (u : UnitOrder) (b : BitOrder) (s : Nat) (ts : List Nat) :
    placedSum (unitIsLittle ⟨u, b⟩) s (ts.length * s) 0 ts =
      (if u = .bigUnit then ts else ts.reverse).foldl (fun a t => a * 2 ^ s + t) 0 := by
  cases u with
  | bigUnit =>
    have hfold := foldl_eq_placedSum_big s ts 0 0
    rw [Nat.zero_mul, Nat.zero_add, Nat.zero_add] at hfold
    exact hfold.symm
  | littleUnit =>
    have hfold := foldr_eq_placedSum_little s (ts.length * s) ts 0
    rw [Nat.zero_mul, Nat.pow_zero, Nat.mul_one] at hfold
    rw [if_neg nofun, List.foldl_reverse]
    exact hfold.symm

/-! ## The statements -/

/-- Settles O14: each turn of the loop fills a window that is still empty. -/
theorem implodeGroupIsSum : Obligations.ImplodeGroupIsSum := by
  intro g iw ow ie oe hr hlen hx
  refine ⟨_, implodeGroup?_eq ie oe hr hlen hx, ?_⟩
  obtain ⟨n, k, hn, -, rfl, rfl⟩ := isRatio_iff.mp hr
  rw [Nat.mul_div_cancel k (Nat.mul_pos (by decide) hn)] at hlen
  refine ⟨implodeGroup_lt ie oe hlen hx, ?_⟩
  rw [implodeGroup_eq_placedSum ie oe hlen hx, placedSum, List.zipIdx_map, List.map_map]
  rfl

/-- Settles O15: the sum of O14, read in the order of the output's units. -/
theorem implodeGroupConcatenates : Obligations.ImplodeGroupConcatenates := by
  intro g iw ow ie oe hr hlen hx
  obtain ⟨n, k, hn, -, rfl, rfl⟩ := isRatio_iff.mp hr
  rw [Nat.mul_div_cancel k (Nat.mul_pos (by decide) hn)] at hlen
  subst hlen
  have hconcat := placedSum_eq_concat oe.unit oe.bit (8 * n) (g.map (convertEqual · (8 * n) ie oe))
  rw [List.length_map] at hconcat
  rw [implodeGroup_eq_placedSum ie oe rfl hx]
  exact hconcat

end Sys2Proof.Machine
end

section
/-! Proofs of `44_exploder.md`: the exploder's chunks are the transformed windows of the wide chunk, so it takes out
what the imploder put in (R114), and the closed form of the imploder read backwards is the exploder's (R113). -/

namespace Sys2Proof.Machine

/-! ## The converter of one chunk back and forth -/

theorem convertEqual_lt {x n : Nat} (hx : x < 2 ^ (8 * n)) (ie oe : Endianness) :
    convertEqual x (8 * n) ie oe < 2 ^ (8 * n) :=
  xform_lt hx _ _

/-- The two tests are symmetric and `xform` undoes itself (`41_reversers.md` R84). -/
theorem convertEqual_convertEqual {x n : Nat} (hx : x < 2 ^ (8 * n)) (ie oe : Endianness) :
    convertEqual (convertEqual x (8 * n) ie oe) (8 * n) oe ie = x := by
  rw [convertEqual, convertEqual, unitOrdersDiffer_comm oe ie, bitOrdersDiffer_comm oe ie, xform_xform hx]

theorem map_convertEqual_convertEqual {n : Nat} {ws : List Nat} (hw : ∀ x ∈ ws, x < 2 ^ (8 * n))
    (ie oe : Endianness) :
    (ws.map (convertEqual · (8 * n) ie oe)).map (convertEqual · (8 * n) oe ie) = ws := by
  rw [List.map_map]
  exact (List.map_congr_left fun x hx => convertEqual_convertEqual (hw x hx) ie oe).trans (List.map_id' ws)

/-! ## The exploder's chunks as windows, and the windows of an imploded group -/

/-- The chunks of the exploder (`44_exploder.md` R111), with the shift read as a slot. -/
theorem explodeChunk_eq_map_window {n : Nat} (hn : 0 < n) (k x : Nat) (ie oe : Endianness) :
    explodeChunk x (k * (8 * n)) ie (8 * n) oe =
      (List.range k).map fun i => convertEqual (window x (8 * n) (slot (unitIsLittle ie) k i)) (8 * n) ie oe := by
  rw [explodeChunk, explodeBurst, Nat.mul_div_cancel k (Nat.mul_pos (by decide) hn)]
  exact List.map_congr_left fun i hi => explodePiece_eq x (List.mem_range.mp hi)

theorem length_explodeChunk {n : Nat} (hn : 0 < n) (k x : Nat) (ie oe : Endianness) :
    (explodeChunk x (k * (8 * n)) ie (8 * n) oe).length = k := by
  rw [explodeChunk_eq_map_window hn, List.length_map, List.length_range]

theorem lt_of_mem_explodeChunk {n : Nat} (hn : 0 < n) {k x : Nat} {ie oe : Endianness} :
    ∀ y ∈ explodeChunk x (k * (8 * n)) ie (8 * n) oe, y < 2 ^ (8 * n) := by
  rw [explodeChunk_eq_map_window hn]
  exact List.forall_mem_map.mpr fun i _ => convertEqual_lt (window_lt x (8 * n) _) ie oe

theorem window_implodeGroup {n k : Nat} {g : List Nat} (ie oe : Endianness) (hlen : g.length = k)
    (hg : ∀ x ∈ g, x < 2 ^ (8 * n)) {i : Nat} (hi : i < k) :
    window (implodeGroup g (8 * n) ie (k * (8 * n)) oe) (8 * n) (slot (unitIsLittle oe) k i) =
      convertEqual (g[i]'(hlen ▸ hi)) (8 * n) ie oe :=
  window_implode hlen hg hi

/-! ## Imploder and exploder undo each other -/

/-- Each chunk is taken out of the window it was put in. -/
theorem explodeChunk_implodeGroup {n k : Nat} (hn : 0 < n) {g : List Nat} (en ew : Endianness) (hlen : g.length = k)
    (hg : ∀ x ∈ g, x < 2 ^ (8 * n)) :
    explodeChunk (implodeGroup g (8 * n) en (k * (8 * n)) ew) (k * (8 * n)) ew (8 * n) en = g := by
  refine List.ext_getElem ((length_explodeChunk hn k _ ew en).trans hlen.symm) fun i _ hi => ?_
  simp only [explodeChunk_eq_map_window hn, List.getElem_map, List.getElem_range]
  rw [window_implodeGroup en ew hlen hg (hlen ▸ hi), convertEqual_convertEqual (hg _ (List.getElem_mem hi))]

/-- Each window is filled with what was taken out of it. -/
theorem implodeGroup_explodeChunk {n k x : Nat} (hn : 0 < n) (en ew : Endianness) (hx : x < 2 ^ (k * (8 * n))) :
    implodeGroup (explodeChunk x (k * (8 * n)) ew (8 * n) en) (8 * n) en (k * (8 * n)) ew = x := by
  have hlen := length_explodeChunk hn k x ew en
  have hchunks := lt_of_mem_explodeChunk hn (k := k) (x := x) (ie := ew) (oe := en)
  refine eq_of_window_eq (implodeGroup_lt en ew hlen hchunks) hx fun j hj => ?_
  have hfill := window_implodeGroup en ew hlen hchunks (slot_lt (lw := unitIsLittle ew) hj)
  simp only [explodeChunk_eq_map_window hn, List.getElem_map, List.getElem_range, slot_slot hj] at hfill ⊢
  rw [hfill, convertEqual_convertEqual (window_lt x (8 * n) j)]

/-! ## The fields of a wide chunk -/

/-- Fields listed most significant first, in the order in which a side of unit order `u` has them
(`44_exploder.md` R113); its own inverse. -/
def inUnitOrder (u : UnitOrder) (ws : List Nat) : List Nat := if u = .bigUnit then ws else ws.reverse

theorem inUnitOrder_inUnitOrder (u : UnitOrder) (ws : List Nat) : inUnitOrder u (inUnitOrder u ws) = ws := by
  cases u <;> simp [inUnitOrder]

@[simp] theorem length_inUnitOrder (u : UnitOrder) (ws : List Nat) : (inUnitOrder u ws).length = ws.length := by
  cases u <;> simp [inUnitOrder]

@[simp] theorem mem_inUnitOrder {u : UnitOrder} {ws : List Nat} {x : Nat} : x ∈ inUnitOrder u ws ↔ x ∈ ws := by
  cases u <;> simp [inUnitOrder]

/-- The group that stands for a wide chunk of endianness `ie` with the fields `ws`: the fields in the order of its
units, each converted to `oe` (`44_exploder.md` R113). -/
def groupOfFields (ws : List Nat) (ow : Nat) (ie oe : Endianness) : List Nat :=
  (inUnitOrder ie.unit ws).map (convertEqual · ow ie oe)

@[simp] theorem length_groupOfFields (ws : List Nat) (ow : Nat) (ie oe : Endianness) :
    (groupOfFields ws ow ie oe).length = ws.length := by
  rw [groupOfFields, List.length_map, length_inUnitOrder]

theorem lt_of_mem_groupOfFields {n : Nat} {ws : List Nat} {ie oe : Endianness} (hw : ∀ x ∈ ws, x < 2 ^ (8 * n)) :
    ∀ x ∈ groupOfFields ws (8 * n) ie oe, x < 2 ^ (8 * n) :=
  List.forall_mem_map.mpr fun x hx => convertEqual_lt (hw x (mem_inUnitOrder.mp hx)) ie oe

/-- Every concatenation of fields is an imploded group: the closed form of the imploder (`43_imploder.md` R105). -/
theorem concat_eq_implodeGroup {ws : List Nat} {iw ow : Nat} (ie oe : Endianness) (hr : isRatio ow iw = true)
    (hlen : ws.length = iw / ow) (hw : ∀ x ∈ ws, x < 2 ^ ow) :
    ws.foldl (fun a t => a * 2 ^ ow + t) 0 = implodeGroup (groupOfFields ws ow ie oe) ow oe iw ie := by
  obtain ⟨n, -, -, -, rfl, -⟩ := isRatio_iff.mp hr
  have hclosed := implodeGroupConcatenates (groupOfFields ws (8 * n) ie oe) (8 * n) iw oe ie hr
    ((length_groupOfFields ..).trans hlen) (lt_of_mem_groupOfFields hw)
  have hback : (groupOfFields ws (8 * n) ie oe).map (convertEqual · (8 * n) oe ie) = inUnitOrder ie.unit ws :=
    map_convertEqual_convertEqual (fun x hx => hw x (mem_inUnitOrder.mp hx)) ie oe
  rw [hback] at hclosed
  rw [hclosed]
  exact congrArg (List.foldl (fun a t => a * 2 ^ (8 * n) + t) 0) (inUnitOrder_inUnitOrder ie.unit ws).symm

theorem isChunkWidth_of_isRatio {small big : Nat} (hr : isRatio small big = true) : isChunkWidth big = true := by
  simp only [isRatio, Bool.and_eq_true] at hr
  obtain ⟨⟨-, hbig⟩, -⟩ := hr
  exact hbig

theorem explodeChunk?_eq {x iw ow : Nat} (ie oe : Endianness) (hr : isRatio ow iw = true) (hx : x < 2 ^ iw) :
    explodeChunk? x iw ie ow oe = some (explodeChunk x iw ie ow oe) :=
  if_pos (Bool.and_eq_true_iff.mpr ⟨hr, isChunk_iff.mpr ⟨isChunkWidth_of_isRatio hr, hx⟩⟩)

/-! ## The statements -/

/-- Settles O17: with the big width written as `k` small ones, window by window. -/
theorem implodeExplodeInverse : Obligations.ImplodeExplodeInverse := by
  intro small big en ew hr
  obtain ⟨n, k, hn, -, rfl, rfl⟩ := isRatio_iff.mp hr
  rw [Nat.mul_div_cancel k (Nat.mul_pos (by decide) hn)]
  exact ⟨fun g hlen hg => explodeChunk_implodeGroup hn en ew hlen hg,
    fun x hx => implodeGroup_explodeChunk hn en ew hx⟩

/-- Settles O16: the chunk is an imploded group (O15), and the exploder gives the group back (O17). -/
theorem explodeChunkSplits : Obligations.ExplodeChunkSplits := by
  intro ws iw ow ie oe hr hlen hw
  rw [concat_eq_implodeGroup ie oe hr hlen hw]
  obtain ⟨n, k, hn, -, rfl, rfl⟩ := isRatio_iff.mp hr
  rw [Nat.mul_div_cancel k (Nat.mul_pos (by decide) hn)] at hlen
  have hcount : (groupOfFields ws (8 * n) ie oe).length = k := (length_groupOfFields ..).trans hlen
  have hchunks := lt_of_mem_groupOfFields (ie := ie) (oe := oe) hw
  rw [explodeChunk?_eq ie oe hr (implodeGroup_lt oe ie hcount hchunks),
    explodeChunk_implodeGroup hn oe ie hcount hchunks]
  rfl

end Sys2Proof.Machine
end

section
/-! Proofs of `45_equal_size.md`: at equal widths a group is one chunk, so the closed forms of the imploder (R105) and
of the exploder (R113) are about one field, which both unit orders read alike (R123). -/

namespace Sys2Proof.Machine

/-! ## A group at equal widths -/

/-- A width is a legal ratio to itself. -/
theorem isRatio_self {w : Nat} (hw : isChunkWidth w = true) : isRatio w w = true := by
  simp [isRatio, hw]

/-- The group has `k = 1` chunk. -/
theorem length_singleton_eq_div_self (x : Nat) {w : Nat} (hw : isChunkWidth w = true) : [x].length = w / w := by
  obtain ⟨n, hn, rfl⟩ := isChunkWidth_iff.mp hw
  exact (Nat.div_self (Nat.mul_pos (by decide) hn)).symm

/-! ## The two formulas for one chunk -/

theorem implodeGroup?_singleton {x w : Nat} (ie oe : Endianness) (hw : isChunkWidth w = true) (hx : x < 2 ^ w) :
    implodeGroup? [x] w ie w oe = some (convertEqual x w ie oe) := by
  have hr := isRatio_self hw
  have hlen := length_singleton_eq_div_self x hw
  have hchunk : ∀ y ∈ [x], y < 2 ^ w := List.forall_mem_singleton.mpr hx
  have hconcat : implodeGroup [x] w ie w oe = convertEqual x w ie oe := by
    simpa using implodeGroupConcatenates [x] w w ie oe hr hlen hchunk
  rw [implodeGroup?_eq ie oe hr hlen hchunk, hconcat]

theorem explodeChunk?_singleton {x w : Nat} (ie oe : Endianness) (hw : isChunkWidth w = true) (hx : x < 2 ^ w) :
    explodeChunk? x w ie w oe = some [convertEqual x w ie oe] := by
  have hsplit := explodeChunkSplits [x] w w ie oe (isRatio_self hw) (length_singleton_eq_div_self x hw)
    (List.forall_mem_singleton.mpr hx)
  simpa using hsplit

/-! ## The statement -/

/-- Settles O18: the closed forms of O15 and O16, for a group of one chunk. -/
theorem equalWidthFormulasAgree : Obligations.EqualWidthFormulasAgree := by
  intro x w ie oe hchunk
  obtain ⟨hw, hx⟩ := isChunk_iff.mp hchunk
  exact ⟨implodeGroup?_singleton ie oe hw hx, explodeChunk?_singleton ie oe hw hx⟩

end Sys2Proof.Machine
end

section
/-! Proofs of `46_dispatcher.md`: the outcomes of validation (R131), the algorithm and the group size of a validated
pair (R132), and what `pack` answers in the order of its tests (R134). -/

namespace Sys2Proof.Machine

/-! ## Validation and selection -/

/-- Settles O19: one branch for each test, in their order; the branch's own test gives its clause, and that the tests
before it failed refutes the clauses of the others. -/
theorem validateOutcomes : Obligations.ValidateOutcomes := by
  intro wMax iw ow
  simp only [validate, Config.unitBits, Nat.dvd_iff_mod_eq_zero]
  split_ifs with hzero hunit hlarge hratio
  all_goals
    simp only [true_iff, false_iff]
    exact ⟨hzero, by omega, by omega, by omega, by omega⟩

/-- Which mode and group size the two widths of a legal pair select (`46_dispatcher.md` R132). -/
theorem select_cases {iw ow : Nat} (h : LegalShape iw ow) :
    (iw = ow ∧ (select iw ow).1 = .eq ∧ (select iw ow).2 = 1) ∨
      (iw < ow ∧ (select iw ow).1 = .imp ∧ (select iw ow).2 * iw = ow ∧ 2 ≤ (select iw ow).2) ∨
      (ow < iw ∧ (select iw ow).1 = .exp ∧ (select iw ow).2 * ow = iw ∧ 2 ≤ (select iw ow).2) := by
  cases h with
  | eq n hn =>
    rw [select_self]
    exact .inl ⟨rfl, rfl, rfl⟩
  | imp n k hn hk =>
    rw [select_imp hn hk]
    exact .inr (.inl ⟨lt_mul_of_two_le (by omega) hk, rfl, rfl, hk⟩)
  | exp n k hn hk =>
    rw [select_exp hn hk]
    exact .inr (.inr ⟨lt_mul_of_two_le (by omega) hk, rfl, rfl, hk⟩)

/-- Settles O20: the bounds hold of every validated pair, the three cases of its shape. -/
theorem selectOutcomes : Obligations.SelectOutcomes := by
  intro wMax iw ow hv
  obtain ⟨-, -, hpos, hmax, -⟩ := select_bounds hv
  exact ⟨_, _, if_pos hv, hpos, hmax, select_cases (legalShape_of_validate hv)⟩

/-! ## The errors of `pack`, in the order of its tests -/

section PackAnswers

variable {wMax iw ow : Nat} {xs : List Nat}

theorem pack_of_illegal (ie oe : Endianness) (hv : validate wMax iw ow ≠ .none) :
    pack wMax xs iw ie ow oe = .err (validate wMax iw ow) :=
  if_pos hv

theorem pack_of_outOfRange (ie oe : Endianness) (hv : validate wMax iw ow = .none) (hx : ∃ x ∈ xs, 2 ^ iw ≤ x) :
    pack wMax xs iw ie ow oe = .err .chunkRange := by
  have hany : (xs.any fun x => decide (2 ^ iw ≤ x)) = true := by simpa using hx
  rw [pack, if_neg (not_not.mpr hv), if_pos hany]

theorem pack_of_partialGroup (ie oe : Endianness) (hv : validate wMax iw ow = .none) (hx : ∀ x ∈ xs, x < 2 ^ iw)
    (hlt : iw < ow) (hlen : xs.length % (ow / iw) ≠ 0) : pack wMax xs iw ie ow oe = .err .incompleteGroup := by
  have hany : ¬(xs.any fun x => decide (2 ^ iw ≤ x)) = true := by simpa using hx
  have hselect : select iw ow = (.imp, ow / iw) := by rw [select, if_neg hlt.ne, if_pos hlt]
  rw [pack, if_neg (not_not.mpr hv), if_neg hany, hselect]
  exact if_pos hlen

/-! ## Valid streams -/

/-- Whole groups matter to the imploder only (`48_laws.md`, introduction). -/
theorem validStream_iff :
    validStream xs iw ow = true ↔ (∀ x ∈ xs, x < 2 ^ iw) ∧ (iw < ow → xs.length % (ow / iw) = 0) := by
  simp [validStream, or_iff_not_imp_left]

/-- Every valid stream of a legal configuration has an output, the algorithm being that of the shape of the widths. -/
theorem exists_packOk (ie oe : Endianness) (hshape : LegalShape iw ow) (hxs : validStream xs iw ow = true) :
    ∃ ys, PackOk xs iw ie ow oe ys := by
  obtain ⟨hrange, hgroups⟩ := validStream_iff.mp hxs
  cases hshape with
  | eq n hn => exact ⟨_, .eq n xs ie oe hn hrange⟩
  | imp n k hn hk =>
    have hlen := hgroups (lt_mul_of_two_le (by omega) hk)
    rw [Nat.mul_div_cancel k (Nat.mul_pos (by decide) hn)] at hlen
    exact ⟨_, .imp n k xs ie oe hn hk hrange hlen⟩
  | exp n k hn hk => exact ⟨_, .exp n k xs ie oe hn hk hrange⟩

/-! ## The output of each algorithm -/

theorem lt_of_mem_convertStream {n : Nat} {ie oe : Endianness} (hx : ∀ x ∈ xs, x < 2 ^ (8 * n)) :
    ∀ y ∈ convertStream xs (8 * n) ie oe, y < 2 ^ (8 * n) :=
  List.forall_mem_map.mpr fun x h => convertEqual_lt (hx x h) ie oe

/-- A group holds at most `k` chunks, so it fills no more than the wide chunk (`43_imploder.md` R103). -/
theorem lt_of_mem_implodeStream {n k : Nat} (hn : 0 < n) {ie oe : Endianness} (hx : ∀ x ∈ xs, x < 2 ^ (8 * n)) :
    ∀ y ∈ implodeStream xs (8 * n) ie (k * (8 * n)) oe, y < 2 ^ (k * (8 * n)) := by
  rw [implodeStream, Nat.mul_div_cancel k (Nat.mul_pos (by decide) hn)]
  refine List.forall_mem_map.mpr fun q _ => ?_
  have hlen : 0 + (groupOf k q xs).length ≤ k := (Nat.zero_add _).trans_le (List.length_take_le ..)
  exact implodeFrom_lt _ hlen (fun x h => hx x (List.mem_of_mem_drop (List.mem_of_mem_take h))) (Nat.two_pow_pos _)

theorem lt_of_mem_explodeStream {n k : Nat} (hn : 0 < n) {ie oe : Endianness} :
    ∀ y ∈ explodeStream xs (k * (8 * n)) ie (8 * n) oe, y < 2 ^ (8 * n) := by
  intro y hy
  obtain ⟨x, -, hchunk⟩ := List.mem_flatMap.mp hy
  exact lt_of_mem_explodeChunk hn y hchunk

theorem length_explodeStream {n : Nat} (hn : 0 < n) (k : Nat) (xs : List Nat) (ie oe : Endianness) :
    (explodeStream xs (k * (8 * n)) ie (8 * n) oe).length = xs.length * k := by
  simp [explodeStream, List.length_flatMap, length_explodeChunk hn]

/-- What `pack` answers is a valid stream for the way back: whole groups are asked of the exploder's output only. -/
theorem validStream_of_packOk {ys : List Nat} {ie oe : Endianness} (h : PackOk xs iw ie ow oe ys) :
    validStream ys ow iw = true := by
  rw [validStream_iff]
  cases h with
  | eq n _ _ _ hn hx => exact ⟨lt_of_mem_convertStream hx, fun hlt => absurd hlt (lt_irrefl _)⟩
  | imp n k _ _ _ hn hk hx _ =>
    exact ⟨lt_of_mem_implodeStream hn hx, fun hlt => absurd hlt (lt_mul_of_two_le (by omega) hk).not_gt⟩
  | exp n k _ _ _ hn hk _ =>
    refine ⟨lt_of_mem_explodeStream hn, fun _ => ?_⟩
    rw [length_explodeStream hn, Nat.mul_div_cancel k (Nat.mul_pos (by decide) hn), Nat.mul_mod_left]

end PackAnswers

/-! ## What `pack` answers -/

/-- Settles O21: the three errors in the order of the tests, and an output for every valid stream. -/
theorem packOutcomes : Obligations.PackOutcomes := by
  intro wMax xs iw ow ie oe
  refine ⟨pack_of_illegal ie oe, pack_of_outOfRange ie oe, pack_of_partialGroup ie oe, fun hv hxs => ?_⟩
  obtain ⟨ys, hok⟩ := exists_packOk ie oe (legalShape_of_validate hv) hxs
  exact ⟨ys, pack_eq_ok_iff.mpr ⟨hv, hok⟩, validStream_of_packOk hok⟩

end Sys2Proof.Machine
end

section
/-! Proofs of `48_laws.md`: `pack` answers the stream of the output side that has the units of the input (R173), so
that each law is a fact about the units of a stream. -/

namespace Sys2Proof.Machine

/-! ## `pack` by the units of its streams -/

theorem validate_comm (wMax iw ow : Nat) : validate wMax iw ow = .none ↔ validate wMax ow iw = .none := by
  simp only [validate_eq_none_iff]
  tauto

theorem validStream_of_pack {wMax iw ow : Nat} {xs ys : List Nat} {ie oe : Endianness}
    (h : pack wMax xs iw ie ow oe = .ok ys) : validStream xs iw ow = true := by
  obtain ⟨-, hok⟩ := pack_eq_ok_iff.mp h
  refine validStream_iff.mpr ⟨hok.inRange, ?_⟩
  cases hok with
  | eq => exact fun hlt => absurd hlt (lt_irrefl _)
  | imp n k _ _ _ hn _ _ hlen =>
    rw [Nat.mul_div_cancel k (Nat.mul_pos (by decide) hn)]
    exact fun _ => hlen
  | exp n k _ _ _ hn hk => exact fun hlt => absurd hlt (lt_mul_of_two_le (by omega) hk).not_gt

/-- What `pack` answers: for a legal configuration and a valid stream, the one stream of output chunks with the same
units. -/
theorem pack_eq_ok_iff_units {wMax iw ow : Nat} {xs ys : List Nat} {ie oe : Endianness} :
    pack wMax xs iw ie ow oe = .ok ys ↔
      validate wMax iw ow = .none ∧ validStream xs iw ow = true ∧ (∀ y ∈ ys, y < 2 ^ ow) ∧
        streamUnits ow oe ys = streamUnits iw ie xs := by
  constructor
  · intro h
    obtain ⟨hv, hok⟩ := pack_eq_ok_iff.mp h
    obtain ⟨hrange, -⟩ := validStream_iff.mp (validStream_of_packOk hok)
    exact ⟨hv, validStream_of_pack h, hrange, packKeepsReferenceUnits wMax xs ys iw ow ie oe h⟩
  · rintro ⟨hv, hxs, hys, hunits⟩
    obtain ⟨-, -, -, houtput⟩ := packOutcomes wMax xs iw ow ie oe
    obtain ⟨zs, hpack, hzs⟩ := houtput hv hxs
    obtain ⟨hzrange, -⟩ := validStream_iff.mp hzs
    obtain ⟨-, how, -⟩ := validate_eq_none_iff.mp hv
    obtain ⟨n, hn, rfl⟩ := isChunkWidth_iff.mp how
    have hzunits := packKeepsReferenceUnits wMax xs zs iw (8 * n) ie oe hpack
    rw [eq_of_streamUnits_eq hn hys hzrange (hunits.trans hzunits.symm), hpack]

/-! ## The laws that compare streams -/

/-- Settles O23: a stream has its own units. -/
theorem packIdentity : Obligations.PackIdentity :=
  fun _ _ _ _ hv hx =>
    pack_eq_ok_iff_units.mpr ⟨hv, validStream_iff.mpr ⟨hx, fun hlt => absurd hlt (lt_irrefl _)⟩, hx, rfl⟩

/-- Settles O24: the output is valid for the way back (O21) and has the units of the input. -/
theorem packRoundTrip : Obligations.PackRoundTrip := by
  intro wMax xs ys w1 w2 e1 e2 h
  obtain ⟨hv, hok⟩ := pack_eq_ok_iff.mp h
  exact pack_eq_ok_iff_units.mpr ⟨(validate_comm wMax w1 w2).mp hv, validStream_of_packOk hok, hok.inRange,
    (packKeepsReferenceUnits wMax xs ys w1 w2 e1 e2 h).symm⟩

/-- Settles O30: the units pass through both packs. -/
theorem packComposes : Obligations.PackComposes := by
  intro wMax xs ys zs w1 w2 w3 e1 e2 e3 hv hxs h12 h23
  obtain ⟨-, -, -, hunits12⟩ := pack_eq_ok_iff_units.mp h12
  obtain ⟨-, -, hzs, hunits23⟩ := pack_eq_ok_iff_units.mp h23
  exact pack_eq_ok_iff_units.mpr ⟨hv, hxs, hzs, hunits23.trans hunits12⟩

/-! ## Locality -/

theorem validStream_append {iw ow : Nat} {xs xs' : List Nat} (h : validStream xs iw ow = true)
    (h' : validStream xs' iw ow = true) : validStream (xs ++ xs') iw ow = true := by
  rw [validStream_iff] at h h' ⊢
  obtain ⟨hrange, hgroups⟩ := h
  obtain ⟨hrange', hgroups'⟩ := h'
  refine ⟨List.forall_mem_append.mpr ⟨hrange, hrange'⟩, fun hlt => ?_⟩
  rw [List.length_append, Nat.add_mod, hgroups hlt, hgroups' hlt, Nat.zero_add, Nat.zero_mod]

theorem pack_nil {wMax iw ow : Nat} (ie oe : Endianness) (hv : validate wMax iw ow = .none) :
    pack wMax [] iw ie ow oe = .ok [] :=
  pack_eq_ok_iff_units.mpr ⟨hv, validStream_iff.mpr ⟨nofun, fun _ => Nat.zero_mod _⟩, nofun, rfl⟩

theorem pack_append {wMax iw ow : Nat} {xs xs' ys ys' : List Nat} {ie oe : Endianness}
    (h : pack wMax xs iw ie ow oe = .ok ys) (h' : pack wMax xs' iw ie ow oe = .ok ys') :
    pack wMax (xs ++ xs') iw ie ow oe = .ok (ys ++ ys') := by
  rw [pack_eq_ok_iff_units] at h h' ⊢
  obtain ⟨hv, hxs, hys, hunits⟩ := h
  obtain ⟨-, hxs', hys', hunits'⟩ := h'
  refine ⟨hv, validStream_append hxs hxs', List.forall_mem_append.mpr ⟨hys, hys'⟩, ?_⟩
  rw [streamUnits] at hunits hunits'
  rw [streamUnits, List.flatMap_append, hunits, hunits', streamUnits, streamUnits, streamUnits, List.flatMap_append]

/-- Settles O29, part by part. -/
theorem packIsLocal : Obligations.PackIsLocal := by
  intro wMax w1 w2 e1 e2 parts outs hv h
  induction h with
  | nil => exact pack_nil e1 e2 hv
  | cons hhead _ ih => exact pack_append hhead ih

/-! ## Conservation of width -/

theorem length_streamUnits (n : Nat) (e : Endianness) (xs : List Nat) :
    (streamUnits (8 * n) e xs).length = xs.length * n := by
  simp [streamUnits, List.length_flatMap, length_referenceUnits]

/-- Settles O22: the two streams have as many units. -/
theorem packConservesWidth : Obligations.PackConservesWidth := by
  intro wMax xs ys iw ow ie oe h
  obtain ⟨hv, -, -, hunits⟩ := pack_eq_ok_iff_units.mp h
  obtain ⟨hiw, how, -⟩ := validate_eq_none_iff.mp hv
  obtain ⟨n, -, rfl⟩ := isChunkWidth_iff.mp hiw
  obtain ⟨m, -, rfl⟩ := isChunkWidth_iff.mp how
  have hcount := congrArg List.length hunits
  rw [length_streamUnits, length_streamUnits] at hcount
  rw [Nat.mul_left_comm, Nat.mul_left_comm ys.length, hcount]

/-! ## One endianness on both sides -/

/-- The units of a chunk in the order of a unit order (`48_laws.md` R174). -/
def unitsInOrder (u : UnitOrder) (w v : Nat) : List Nat :=
  (if u = .littleUnit then unitsLsbFirst w else unitsMsbFirst w) v

theorem lt_of_mem_unitsInOrder {u : UnitOrder} {w v : Nat} : ∀ b ∈ unitsInOrder u w v, b < 256 := by
  cases u <;> exact List.forall_mem_map.mpr fun _ _ => unitOf_lt _ _

theorem bitrevUnit_bitrevUnit {b : Nat} (hb : b < 256) : bitrevUnit (bitrevUnit b) = b := by
  refine Nat.eq_of_testBit_eq fun t => ?_
  rw [bitrevUnit_testBit, bitrevUnit_testBit, testBit_eq_decide_and (w := 8) hb t]
  by_cases ht : t < 8
  · rw [decide_eq_true (show 7 - t < 8 by omega), show 7 - (7 - t) = t by omega, Bool.true_and]
  · simp [ht]

theorem referenceUnits_eq_map_unitsInOrder (w : Nat) (e : Endianness) (v : Nat) :
    referenceUnits w e v = (unitsInOrder e.unit w v).map (if bitIsLittle e then bitrevUnit else id) := by
  rcases e with ⟨⟨⟩, ⟨⟩⟩ <;> simp [referenceUnits, unitsInOrder, unitIsLittle, bitIsLittle]

/-- The bit order is read the same way on both sides, and reading it so loses nothing: the units themselves agree. -/
theorem unitsInOrder_eq_of_streamUnits_eq {w w' : Nat} {e : Endianness} {xs ys : List Nat}
    (h : streamUnits w' e ys = streamUnits w e xs) :
    ys.flatMap (unitsInOrder e.unit w') = xs.flatMap (unitsInOrder e.unit w) := by
  have hback : ∀ (w : Nat) (zs : List Nat),
      (streamUnits w e zs).map (if bitIsLittle e then bitrevUnit else id) =
        zs.flatMap (unitsInOrder e.unit w) := by
    intro w zs
    rw [streamUnits, List.map_flatMap]
    refine List.flatMap_congr fun v _ => ?_
    rw [referenceUnits_eq_map_unitsInOrder, List.map_map]
    refine (List.map_congr_left fun b hb => ?_).trans (List.map_id' _)
    have hlt := lt_of_mem_unitsInOrder b hb
    split
    · exact bitrevUnit_bitrevUnit hlt
    · rfl
  rw [← hback, h, hback]

/-- Settles O26. -/
theorem packSameEndiannessOnlyRegroups : Obligations.PackSameEndiannessOnlyRegroups :=
  fun wMax xs ys w1 w2 e h =>
    unitsInOrder_eq_of_streamUnits_eq (packKeepsReferenceUnits wMax xs ys w1 w2 e e h)

/-- Settles O25: the case of O26 in which the most significant unit comes first. -/
theorem packReferenceFormOnlyRegroups : Obligations.PackReferenceFormOnlyRegroups :=
  fun wMax xs ys w1 w2 h => packSameEndiannessOnlyRegroups wMax xs ys w1 w2 bigUnitBigBit h

end Sys2Proof.Machine
end

section
/-! Proofs of `48_laws.md`: `pack` permutes bits (R175). The bits of a stream are numbered through its units in the
order of the reference form, and `pack` keeps the numbers. -/

namespace Sys2Proof.Machine

/-! ## The bits of a chunk in the order of the reference form -/

/-- The number of bit `t` of a chunk of `n` units among the bits of its reference units, and the bit that has the number
`t`: the map is its own inverse. -/
def referencePlace (n : Nat) (e : Endianness) (t : Nat) : Nat :=
  xformSource (!unitIsLittle e) (bitIsLittle e) n t

theorem referencePlace_lt {n t : Nat} (e : Endianness) (ht : t < 8 * n) : referencePlace n e t < 8 * n :=
  xformSource_lt ht

theorem referencePlace_referencePlace {n t : Nat} (e : Endianness) (ht : t < 8 * n) :
    referencePlace n e (referencePlace n e t) = t :=
  xformSource_xformSource ht

theorem referencePlace_eq (n : Nat) (e : Endianness) (t : Nat) :
    referencePlace n e t = referenceSource n e (t / 8) (t % 8) := by
  cases hu : unitIsLittle e <;> simp [referencePlace, xformSource, referenceSource, slot, hu]

/-! ## The bits of a stream -/

/-- The number of bit `p.2` of chunk `p.1` among the bits of the reference units of a stream of chunks of `n` units. -/
def bitNumber (n : Nat) (e : Endianness) (p : Nat × Nat) : Nat := p.1 * (8 * n) + referencePlace n e p.2

/-- The chunk and the bit in it that have a number. -/
def bitPosition (n : Nat) (e : Endianness) (r : Nat) : Nat × Nat :=
  (r / (8 * n), referencePlace n e (r % (8 * n)))

/-- The bit positions of a stream of `m` chunks of `n` units. -/
def bitPositions (m n : Nat) : Set (Nat × Nat) := {p | p.1 < m ∧ p.2 < 8 * n}

theorem bitNumber_mapsTo (m n : Nat) (e : Endianness) :
    Set.MapsTo (bitNumber n e) (bitPositions m n) {r | r < m * (8 * n)} := by
  rintro ⟨j, t⟩ ⟨hj, ht⟩
  calc j * (8 * n) + referencePlace n e t
      < (j + 1) * (8 * n) := by
        rw [Nat.add_one_mul j]
        exact Nat.add_lt_add_left (referencePlace_lt (t := t) e ht) _
    _ ≤ m * (8 * n) := Nat.mul_le_mul_right _ hj

theorem bitPosition_mapsTo {n : Nat} (hn : 0 < n) (m : Nat) (e : Endianness) :
    Set.MapsTo (bitPosition n e) {r | r < m * (8 * n)} (bitPositions m n) := by
  have hw : 0 < 8 * n := Nat.mul_pos (by decide) hn
  exact fun r hr => ⟨(Nat.div_lt_iff_lt_mul hw).mpr hr, referencePlace_lt e (Nat.mod_lt r hw)⟩

theorem bitPosition_bitNumber {n : Nat} (hn : 0 < n) (m : Nat) (e : Endianness) :
    Set.LeftInvOn (bitPosition n e) (bitNumber n e) (bitPositions m n) := by
  rintro ⟨j, t⟩ ⟨-, ht⟩
  have hw : 0 < 8 * n := Nat.mul_pos (by decide) hn
  have hplace : referencePlace n e t < 8 * n := referencePlace_lt e ht
  have hback : referencePlace n e (referencePlace n e t) = t := referencePlace_referencePlace e ht
  simp only [bitPosition, bitNumber]
  rw [Nat.mul_comm j, Nat.mul_add_div hw, Nat.mul_add_mod, Nat.div_eq_of_lt hplace, Nat.mod_eq_of_lt hplace, hback,
    Nat.add_zero]

theorem bitNumber_bitPosition {n : Nat} (hn : 0 < n) (m : Nat) (e : Endianness) :
    Set.RightInvOn (bitPosition n e) (bitNumber n e) {r | r < m * (8 * n)} := by
  intro r _
  have hw : 0 < 8 * n := Nat.mul_pos (by decide) hn
  rw [bitNumber, bitPosition, referencePlace_referencePlace e (Nat.mod_lt r hw), Nat.div_add_mod']

theorem bitNumber_bijOn {n : Nat} (hn : 0 < n) (m : Nat) (e : Endianness) :
    Set.BijOn (bitNumber n e) (bitPositions m n) {r | r < m * (8 * n)} :=
  Set.InvOn.bijOn ⟨bitPosition_bitNumber hn m e, bitNumber_bitPosition hn m e⟩ (bitNumber_mapsTo m n e)
    (bitPosition_mapsTo hn m e)

theorem bitPosition_bijOn {n : Nat} (hn : 0 < n) (m : Nat) (e : Endianness) :
    Set.BijOn (bitPosition n e) {r | r < m * (8 * n)} (bitPositions m n) :=
  Set.InvOn.bijOn ⟨bitNumber_bitPosition hn m e, bitPosition_bitNumber hn m e⟩ (bitPosition_mapsTo hn m e)
    (bitNumber_mapsTo m n e)

/-- Which output bit position is which input bit position: the one with the same number. -/
def packBitMap (n1 : Nat) (e1 : Endianness) (n2 : Nat) (e2 : Endianness) (p : Nat × Nat) : Nat × Nat :=
  bitPosition n1 e1 (bitNumber n2 e2 p)

theorem packBitMap_bijOn {n1 n2 len1 len2 : Nat} (hn1 : 0 < n1) (hn2 : 0 < n2) (e1 e2 : Endianness)
    (hlen : len1 * (8 * n1) = len2 * (8 * n2)) :
    Set.BijOn (packBitMap n1 e1 n2 e2) (bitPositions len2 n2) (bitPositions len1 n1) :=
  (bitPosition_bijOn hn1 len1 e1).comp (hlen ▸ bitNumber_bijOn hn2 len2 e2)

/-! ## The bits of a stream by their numbers -/

/-- The bit of a stream that has the number `r`. -/
def streamBit (n : Nat) (e : Endianness) (xs : List Nat) (r : Nat) : Bool :=
  (xs.getD (bitPosition n e r).1 0).testBit (bitPosition n e r).2

theorem streamUnits_eq_map_range {n : Nat} (e : Endianness) (xs : List Nat) :
    streamUnits (8 * n) e xs =
      (List.range (xs.length * n)).map fun u => referenceUnit n e (xs.getD (u / n) 0) (u % n) := by
  have hxs : xs = (List.range xs.length).map (xs.getD · 0) :=
    List.ext_getElem (by simp) (by simp +contextual)
  rw [map_range_mul, streamUnits]
  conv_lhs => rw [hxs]
  rw [List.flatMap_map]
  refine List.flatMap_congr fun i _ => ?_
  rw [referenceUnits_eq]
  refine List.map_congr_left fun u hu => ?_
  rw [List.mem_range] at hu
  have hn : 0 < n := by omega
  rw [Nat.mul_comm i n, Nat.mul_add_div hn, Nat.div_eq_of_lt hu, Nat.mul_add_mod, Nat.mod_eq_of_lt hu, Nat.add_zero]

/-- The bit with the number `r` is bit `r % 8` of unit `r / 8`. -/
theorem streamBit_eq_testBit {n r : Nat} {e : Endianness} {xs : List Nat} (hr : r < xs.length * (8 * n)) :
    streamBit n e xs r = ((streamUnits (8 * n) e xs).getD (r / 8) 0).testBit (r % 8) := by
  have hunit : r / 8 < xs.length * n := by
    rw [Nat.mul_left_comm] at hr
    omega
  have hplace : referencePlace n e (r % (8 * n)) = referenceSource n e (r / 8 % n) (r % 8) := by
    rw [referencePlace_eq, Nat.mod_mul_right_div_self, Nat.mod_mul_right_mod]
  rw [streamUnits_eq_map_range, List.getD_eq_getElem _ _ (by simpa using hunit), List.getElem_map,
    List.getElem_range, referenceUnit_testBit, decide_eq_true (Nat.mod_lt r (by decide)), Bool.true_and,
    Nat.div_div_eq_div_mul, ← hplace]
  rfl

theorem streamBit_bitNumber {n len : Nat} (hn : 0 < n) {e : Endianness} {p : Nat × Nat}
    (hp : p ∈ bitPositions len n) (xs : List Nat) :
    streamBit n e xs (bitNumber n e p) = (xs.getD p.1 0).testBit p.2 := by
  rw [streamBit, bitPosition_bitNumber hn len e hp]

/-- Settles O28: the output bit and the input bit that have one number are a bit of one unit. -/
theorem packPermutesBits : Obligations.PackPermutesBits := by
  intro wMax w1 w2 n m e1 e2 hv hlen
  obtain ⟨h1, h2, -⟩ := validate_eq_none_iff.mp hv
  obtain ⟨n1, hn1, rfl⟩ := isChunkWidth_iff.mp h1
  obtain ⟨n2, hn2, rfl⟩ := isChunkWidth_iff.mp h2
  refine ⟨packBitMap n1 e1 n2 e2, packBitMap_bijOn hn1 hn2 e1 e2 hlen, ?_⟩
  rintro xs ys rfl hpack
  have hwidth := packConservesWidth wMax xs ys _ _ e1 e2 hpack
  obtain rfl : ys.length = m :=
    Nat.eq_of_mul_eq_mul_right (Nat.mul_pos (by decide) hn2) (hwidth.symm.trans hlen)
  refine ⟨rfl, fun p hj ht => ?_⟩
  have hp : p ∈ bitPositions ys.length n2 := ⟨hj, ht⟩
  have hr : bitNumber n2 e2 p < ys.length * (8 * n2) := bitNumber_mapsTo ys.length n2 e2 hp
  calc (ys.getD p.1 0).testBit p.2
      = streamBit n2 e2 ys (bitNumber n2 e2 p) := (streamBit_bitNumber hn2 hp ys).symm
    _ = streamBit n1 e1 xs (bitNumber n2 e2 p) := by
        rw [streamBit_eq_testBit hr, streamBit_eq_testBit (hlen ▸ hr),
          packKeepsReferenceUnits wMax xs ys _ _ e1 e2 hpack]

end Sys2Proof.Machine
end

section
/-! Proofs of `47_commands.md`: what a step and each command answer, case by case (R150 to R153, R157, R158). -/

namespace Sys2Proof.Machine

/-! ## A step -/

theorem step_of_command {s : State} {w : Nat} {rest : List Nat} (h : s.commandPort = w :: rest) :
    step s = exec (decode s.wMax w) s := by
  rw [step, State.nextCommand?, h, List.head?_cons]

theorem step_of_no_command {s : State} (h : s.commandPort = []) : step s = .next s := by
  rw [step, State.nextCommand?, h, List.head?_nil]

/-- Settles O31. -/
theorem stepRunsTheDecodedCommand : Obligations.StepRunsTheDecodedCommand :=
  fun _ _ _ h => ⟨step_of_command h, congrArg List.tail h⟩

/-- Settles O32. -/
theorem nothingHappensWithoutACommand : Obligations.NothingHappensWithoutACommand :=
  fun _ h => step_of_no_command h

/-! ## RST and CFG -/

/-- Settles O33: the reset values of the parameter's machine, field by field. -/
theorem rstClearsEveryRegister : Obligations.RstClearsEveryRegister :=
  fun _ => rfl

theorem unitOrdersDiffer_eq_decide (a b : Endianness) : unitOrdersDiffer a b = decide (a.unit ≠ b.unit) := by
  rcases a with ⟨⟨⟩, ⟨⟩⟩ <;> rcases b with ⟨⟨⟩, ⟨⟩⟩ <;> rfl

theorem bitOrdersDiffer_eq_decide (a b : Endianness) : bitOrdersDiffer a b = decide (a.bit ≠ b.bit) := by
  rcases a with ⟨⟨⟩, ⟨⟩⟩ <;> rcases b with ⟨⟨⟩, ⟨⟩⟩ <;> rfl

theorem unitIsLittle_eq_decide (e : Endianness) : unitIsLittle e = decide (e.unit = .littleUnit) := by
  rcases e with ⟨⟨⟩, _⟩ <;> rfl

/-- `LW` by the mode and the unit order of the wide side (`46_dispatcher.md` R133). -/
theorem wideIsLittle_eq_decide (m : Mode) (ie oe : Endianness) :
    wideIsLittle m ie oe =
      decide ((m = .imp ∧ oe.unit = .littleUnit) ∨ (m = .exp ∧ ie.unit = .littleUnit)) := by
  cases m <;> simp [wideIsLittle, unitIsLittle_eq_decide]

/-- Settles O34: the state of an accepted configuration, its group size being that of `select` in 32 bits. -/
theorem cfgAcceptedStartsACall : Obligations.CfgAcceptedStartsACall := by
  intro s iw ow ie oe hv
  refine ⟨(select iw.toNat ow.toNat).1, BitVec.ofNat 32 (select iw.toNat ow.toNat).2, ?_, ?_⟩
  · rw [← unitOrdersDiffer_eq_decide, ← bitOrdersDiffer_eq_decide, ← wideIsLittle_eq_decide]
    exact congrArg Host.Outcome.next (configure_of_legal (s := s.takeCommand) ie oe hv)
  · rw [groupSize_toNat hv]
    rcases select_cases (legalShape_of_validate hv) with ⟨hw, hm, hk⟩ | ⟨hw, hm, hk, -⟩ | ⟨hw, hm, hk, -⟩
    · exact .inl ⟨hw, hm, congrArg (BitVec.ofNat 32) hk⟩
    · exact .inr (.inl ⟨hw, hm, hk⟩)
    · exact .inr (.inr ⟨hw, hm, hk⟩)

/-- The causes of `validate` are of the class ConfigurationError (`60_exceptions.md` R192). -/
theorem validate_isConfigurationError {wMax iw ow : Nat} (h : validate wMax iw ow ≠ .none) :
    (validate wMax iw ow).isConfigurationError = true := by
  revert h
  rw [validate]
  split_ifs
  case neg => exact fun h => absurd rfl h
  all_goals exact fun _ => rfl

/-- Settles O35. -/
theorem cfgRejectedEntersErr : Obligations.CfgRejectedEntersErr :=
  fun s _ _ ie oe hv =>
    ⟨validate_isConfigurationError hv,
      congrArg Host.Outcome.next (configure_of_illegal (s := s.takeCommand) ie oe hv)⟩

/-! ## A PUSH before its data path -/

/-- A PUSH of `arg`: the command, or a row of format CTRL (`30_encoding.md` R58). -/
def IsPushOf (arg : Nat) (i : Instr) : Prop := i = .push arg ∨ ∃ c, ControlRow arg c i

/-- Every PUSH makes the tests of R153 first. -/
theorem exec_of_isPushOf {arg : Nat} {i : Instr} (h : IsPushOf arg i) (s : State) :
    ∃ path, exec i s = pushTested arg s.takeCommand path := by
  rcases h with rfl | ⟨c, hrow⟩
  · exact ⟨_, execPush_eq arg s⟩
  · exact ⟨_, exec_controlRow hrow s⟩

/-- Settles O38: the tests come before the data path, whichever it is. -/
theorem pushTurnedAway : Obligations.PushTurnedAway := by
  intro s i arg hi
  have hpush : IsPushOf arg i := by
    rcases hi with rfl | ⟨u, b, rfl⟩ | ⟨u, b, l, rfl⟩ | ⟨u, b, l, rfl⟩
    · exact .inl rfl
    · exact .inr ⟨_, .eq u b⟩
    · exact .inr ⟨_, .imp u b l⟩
    · exact .inr ⟨_, .exp u b l⟩
  obtain ⟨path, hexec⟩ := exec_of_isPushOf hpush s
  rw [hexec]
  exact ⟨fun hp => pushTested_err (s := s.takeCommand) hp, fun hp => pushTested_closed (s := s.takeCommand) hp,
    fun hp hr => pushTested_range (s := s.takeCommand) hp hr⟩

theorem execPush_of_run {s : State} {arg : Nat} (hp : s.phase = .run) (hf : arg < 2 ^ s.inWidth.toNat) :
    execPush arg s = .next (pushPath arg s.takeCommand) :=
  (execPush_eq arg s).trans (pushTested_run (s := s.takeCommand) hp hf)

/-! ## END -/

section EndStream

variable {s : State}

theorem execEndStream_err (hp : s.phase = .err) : execEndStream s = .next s.takeCommand := by
  simp [execEndStream, hp]

theorem execEndStream_closed (hp : s.phase = .idle ∨ s.phase = .done) :
    execEndStream s = .next (s.takeCommand.raise .protocol) := by
  rcases hp with hp | hp <;> simp [execEndStream, hp]

theorem execEndStream_partial (hp : s.phase = .run) (hm : s.mode = .imp) (hidx : s.idx ≠ 0) :
    execEndStream s = .next (s.takeCommand.raise .incompleteGroup) := by
  simp only [execEndStream, hp]
  exact if_pos ⟨hm, hidx⟩

theorem execEndStream_whole (hp : s.phase = .run) (hgroup : s.mode ≠ .imp ∨ s.idx = 0) :
    execEndStream s = .next { s.takeCommand with phase := .done } := by
  simp only [execEndStream, hp]
  exact if_neg fun ⟨hm, hidx⟩ => hgroup.elim (fun h => h hm) hidx

end EndStream

/-- Settles O46. -/
theorem endClosesTheCall : Obligations.EndClosesTheCall :=
  fun _ => ⟨execEndStream_err, execEndStream_closed, execEndStream_partial, execEndStream_whole⟩

/-! ## The reserved opcodes -/

theorem rejectOpcode_err {s : State} (hp : s.phase = .err) : rejectOpcode s = .next s := if_pos hp

theorem rejectOpcode_of_ne {s : State} (hp : s.phase ≠ .err) : rejectOpcode s = .next (s.raise .illegalCmd) :=
  if_neg hp

/-- Settles O47: both groups of reserved opcodes do the same. -/
theorem reservedOpcodesRaiseIllegalCmd : Obligations.ReservedOpcodesRaiseIllegalCmd :=
  fun s _ _ =>
    ⟨fun hp => ⟨rejectOpcode_of_ne (s := s.takeCommand) hp, rejectOpcode_of_ne (s := s.takeCommand) hp⟩,
      fun hp => ⟨rejectOpcode_err (s := s.takeCommand) hp, rejectOpcode_err (s := s.takeCommand) hp⟩⟩

/-! ## Every command is answered -/

theorem exists_pushTested (arg : Nat) (s u : State) : ∃ t, pushTested arg s (.next u) = .next t := by
  cases hp : s.phase with
  | err => exact ⟨_, pushTested_err hp⟩
  | idle => exact ⟨_, pushTested_closed (.inl hp)⟩
  | done => exact ⟨_, pushTested_closed (.inr hp)⟩
  | run =>
    rcases Nat.lt_or_ge arg (2 ^ s.inWidth.toNat) with hf | hr
    · exact ⟨_, pushTested_run hp hf⟩
    · exact ⟨_, pushTested_range hp hr⟩

theorem exists_execEndStream (s : State) : ∃ t, execEndStream s = .next t := by
  cases hp : s.phase with
  | err => exact ⟨_, execEndStream_err hp⟩
  | idle => exact ⟨_, execEndStream_closed (.inl hp)⟩
  | done => exact ⟨_, execEndStream_closed (.inr hp)⟩
  | run =>
    by_cases hm : s.mode = .imp
    · by_cases hidx : s.idx = 0
      · exact ⟨_, execEndStream_whole hp (.inr hidx)⟩
      · exact ⟨_, execEndStream_partial hp hm hidx⟩
    · exact ⟨_, execEndStream_whole hp (.inl hm)⟩

theorem exists_rejectOpcode (s : State) : ∃ t, rejectOpcode s = .next t := by
  by_cases hp : s.phase = .err
  · exact ⟨_, rejectOpcode_err hp⟩
  · exact ⟨_, rejectOpcode_of_ne hp⟩

/-- Only a row of format CTRL can stop, and no command word is one (`30_encoding.md` R58). -/
theorem exists_exec_of_not_controlRow {i : Instr} (hi : isControlRow i = false) (s : State) :
    ∃ t, exec i s = .next t := by
  cases i with
  | rst => exact ⟨_, rfl⟩
  | cfg => exact ⟨_, rfl⟩
  | push arg => exact exists_pushTested arg s.takeCommand _
  | endStream => exact exists_execEndStream s
  | reserved47 _ => exact exists_rejectOpcode s.takeCommand
  | reserved8F _ => exact exists_rejectOpcode s.takeCommand
  | pushEq _ _ _ | pushImp _ _ _ _ | pushExp _ _ _ _ => exact Bool.noConfusion hi

theorem exists_step (s : State) : ∃ t, step s = .next t := by
  cases hport : s.commandPort with
  | nil => exact ⟨s, step_of_no_command hport⟩
  | cons w rest =>
    rw [step_of_command hport]
    exact exists_exec_of_not_controlRow (decode_not_controlRow s.wMax w) s

/-- Settles O58: a decoded command has a next state, and its burst is that of O51. -/
theorem stepAlwaysAnswersNext : Obligations.StepAlwaysAnswersNext := by
  refine fun s => ⟨exists_step s, fun w => ?_⟩
  obtain ⟨t, hexec⟩ := exists_exec_of_not_controlRow (decode_not_controlRow s.wMax w) s
  obtain ⟨htaken, burst, happended, hlen, hbound, -⟩ := burstsAreAppended s t _ hexec
  exact ⟨t, burst, hexec, htaken, happended, hlen, fun c hc => (hbound c hc).1⟩

end Sys2Proof.Machine
end

section
/-! Proofs of `60_exceptions.md`: what entering the error phase writes (R196), and that CFG and RST alone leave it
(R201). -/

namespace Sys2Proof.Machine

/-- Settles O37: the definition, field by field. -/
theorem raiseWritesAndKeeps : Obligations.RaiseWritesAndKeeps :=
  fun _ _ => rfl

/-- Settles O49: in phase ERR each command makes the test of the phase first. -/
theorem errPhaseIsSticky : Obligations.ErrPhaseIsSticky := by
  intro s i hp hrst hcfg
  cases i with
  | rst => exact absurd rfl hrst
  | cfg iw ie ow oe => exact absurd rfl (hcfg iw ie ow oe)
  | push arg => exact (execPush_eq arg s).trans (pushTested_err (s := s.takeCommand) hp)
  | endStream => exact execEndStream_err hp
  | reserved47 _ => exact rejectOpcode_err (s := s.takeCommand) hp
  | reserved8F _ => exact rejectOpcode_err (s := s.takeCommand) hp
  | pushEq u b arg => exact (exec_controlRow (.eq u b) s).trans (pushTested_err (s := s.takeCommand) hp)
  | pushImp u b l arg => exact (exec_controlRow (.imp u b l) s).trans (pushTested_err (s := s.takeCommand) hp)
  | pushExp u b l arg => exact (exec_controlRow (.exp u b l) s).trans (pushTested_err (s := s.takeCommand) hp)

end Sys2Proof.Machine
end

section
/-! Proofs of `47_commands.md`: the data paths of PUSH (R154 to R156), from the registers alone, then under the controls
that the dispatcher derives. -/

namespace Sys2Proof.Machine

/-! ## The data paths from the registers -/

section Registers

variable {s : State}

/-- The ports are no registers. -/
theorem registersOk_of_ports (h : s.RegistersOk) (cs os : List Nat) :
    State.RegistersOk { s with commandPort := cs, outputPort := os } := by
  obtain ⟨hidle, hrest⟩ := h
  exact ⟨fun hp => congrArg (fun u : State => { u with commandPort := cs, outputPort := os }) (hidle hp), hrest⟩

theorem registersOk_takeCommand (h : s.RegistersOk) : s.takeCommand.RegistersOk := registersOk_of_ports h ..

/-- The widths of an open call are those of chunks, and the output chunk fits the port (`10_state.md` R22). -/
theorem widths_of_registersOk (h : s.RegistersOk) (hp : s.configured) :
    isChunkWidth s.inWidth.toNat = true ∧ isChunkWidth s.outWidth.toNat = true ∧ s.outWidth.toNat ≤ s.wMax := by
  obtain ⟨-, -, hopen, -⟩ := h
  obtain ⟨-, -, -, hlegal⟩ := hopen hp
  obtain ⟨hiw, how, -, hle, -⟩ := validate_eq_none_iff.mp hlegal
  exact ⟨hiw, how, hle⟩

theorem presented_eq_mod {wMax outWidth : Nat} (h : outWidth ≤ wMax) (v : Nat) :
    presented wMax outWidth v = v % 2 ^ outWidth := by
  rw [presented, Nat.min_eq_left h]

/-- R154 in any registers of R22: the chunk is in the `OUT_WIDTH` bits of the port. -/
theorem pushEqPath_of_registersOk {arg : Nat} (h : s.RegistersOk) (hp : s.phase = .run)
    (hf : arg < 2 ^ s.inWidth.toNat) :
    pushEqPath arg s =
      { s with outputPort := s.outputPort ++ [xform arg s.inWidth.toNat s.du s.db % 2 ^ s.outWidth.toNat] } := by
  obtain ⟨hiw, -, hle⟩ := widths_of_registersOk h (.inl hp)
  rw [pushEqPath, State.emit, List.map_singleton, presented_eq_mod hle, xformOrFree_eq (isChunk_iff.mpr ⟨hiw, hf⟩)]

/-- R155 in any registers of R22. -/
theorem accumulated_of_registersOk {arg : Nat} (h : s.RegistersOk) (hp : s.phase = .run)
    (hf : arg < 2 ^ s.inWidth.toNat) :
    s.accumulated arg =
      (s.acc ||| (xform arg s.inWidth.toNat s.du s.db <<<
        shiftOrFree s.lw s.idx.toNat s.inWidth.toNat s.outWidth.toNat)) % 2 ^ s.outWidth.toNat := by
  obtain ⟨hiw, -, hle⟩ := widths_of_registersOk h (.inl hp)
  rw [State.accumulated, presented_eq_mod hle, xformOrFree_eq (isChunk_iff.mpr ⟨hiw, hf⟩)]

theorem emit_accumulated (s : State) (arg : Nat) :
    s.emit [s.accumulated arg] = { s with outputPort := s.outputPort ++ [s.accumulated arg] } := by
  rw [State.emit, List.map_singleton, State.accumulated, presented, presented, Nat.mod_mod]

/-- The two branches of R155. -/
theorem pushImpPath_eq (arg : Nat) (s : State) :
    pushImpPath arg s =
      if s.idx.toNat + 1 = s.k.toNat then
        { s with acc := 0, idx := 0, outputPort := s.outputPort ++ [s.accumulated arg] }
      else { s with acc := s.accumulated arg, idx := s.idx + 1 } := by
  rw [pushImpPath, emit_accumulated]

/-- R156 in any registers of R22: a window is a chunk of the output width, so the port keeps it. -/
theorem pushExpPath_of_registersOk (arg : Nat) (h : s.RegistersOk) (hp : s.phase = .run) :
    pushExpPath arg s =
      { s with
        outputPort := s.outputPort ++ (List.range s.k.toNat).map fun i =>
          xform ((arg >>> shiftOrFree s.lw i s.outWidth.toNat s.inWidth.toNat) &&& mask s.outWidth.toNat)
            s.outWidth.toNat s.du s.db } := by
  obtain ⟨-, how, hle⟩ := widths_of_registersOk h (.inl hp)
  have hwindow : ∀ v, v &&& mask s.outWidth.toNat < 2 ^ s.outWidth.toNat := fun v => by
    rw [land_mask]
    exact Nat.mod_lt _ (Nat.two_pow_pos _)
  rw [pushExpPath, State.emit, List.map_map]
  congr 2
  refine List.map_congr_left fun i _ => ?_
  rw [Function.comp_apply, State.exploded, xformOrFree_eq (isChunk_iff.mpr ⟨how, hwindow _⟩)]
  obtain ⟨n, -, hn⟩ := isChunkWidth_iff.mp how
  exact presented_eq (hn ▸ xform_lt (hn ▸ hwindow _) s.du s.db) hle

end Registers

/-- Settles O43: each data path from the registers, its shift being the one the data path takes. -/
theorem pushFollowsItsRegisters : Obligations.PushFollowsItsRegisters := by
  intro s arg h hp hf
  have htake := registersOk_takeCommand h
  have hexec : exec (.push arg) s = .next (pushPath arg s.takeCommand) := execPush_of_run hp hf
  rw [hexec]
  refine ⟨fun hm => ?eq, fun hm => ?imp, fun hm => ?exp⟩
  case eq =>
    rw [pushPath_of_eq (s := s.takeCommand) arg hm, pushEqPath_of_registersOk htake hp hf]
    rfl
  case imp =>
    refine ⟨shiftOrFree s.lw s.idx.toNat s.inWidth.toNat s.outWidth.toNat, s.accumulated arg, fun hlw => ?_,
      fun hlw hle => ?_, accumulated_of_registersOk h hp hf, ?_⟩
    · rw [hlw, shiftOrFree_little]
    · rw [hlw, shiftOrFree_big hle]
    · rw [pushPath_of_imp (s := s.takeCommand) arg hm, pushImpPath_eq]
      rfl
  case exp =>
    refine ⟨fun i => shiftOrFree s.lw i s.outWidth.toNat s.inWidth.toNat, fun hlw i => ?_, fun hlw i hle => ?_, ?_⟩
    · rw [hlw]
      exact shiftOrFree_little ..
    · rw [hlw]
      exact shiftOrFree_big hle
    · rw [pushPath_of_exp (s := s.takeCommand) arg hm, pushExpPath_of_registersOk arg htake hp]
      rfl

/-! ## The data paths under the controls of the dispatcher -/

/-- The state with chunks appended to the output port as they stand. -/
def State.appendChunks (s : State) (burst : List Nat) : State := { s with outputPort := s.outputPort ++ burst }

@[simp] theorem State.appendChunks_inWidth (s : State) (b : List Nat) : (s.appendChunks b).inWidth = s.inWidth := rfl
@[simp] theorem State.appendChunks_outWidth (s : State) (b : List Nat) : (s.appendChunks b).outWidth = s.outWidth := rfl
@[simp] theorem State.appendChunks_inEnd (s : State) (b : List Nat) : (s.appendChunks b).inEnd = s.inEnd := rfl
@[simp] theorem State.appendChunks_outEnd (s : State) (b : List Nat) : (s.appendChunks b).outEnd = s.outEnd := rfl
@[simp] theorem State.appendChunks_k (s : State) (b : List Nat) : (s.appendChunks b).k = s.k := rfl

@[simp] theorem appendChunks_nil (s : State) : s.appendChunks [] = s := by
  rw [State.appendChunks, List.append_nil]

@[simp] theorem appendChunks_appendChunks (s : State) (b b' : List Nat) :
    (s.appendChunks b).appendChunks b' = s.appendChunks (b ++ b') := by
  simp only [State.appendChunks, List.append_assoc]

/-- A burst of chunks of the output width is emitted as it stands (`20_memory.md` R33). -/
theorem emit_eq_appendChunks {s : State} {burst : List Nat} (hlt : ∀ y ∈ burst, y < 2 ^ s.outWidth.toNat)
    (hle : s.outWidth.toNat ≤ s.wMax) : s.emit burst = s.appendChunks burst := by
  rw [State.emit, presented_map hlt hle, State.appendChunks]

section Call

variable {s : State} {arg : Nat}

/-- `DU` and `DB` select the reference conversion (`45_equal_size.md` R121). -/
theorem xform_eq_convertEqual (hc : s.ControlsOk) (hp : s.configured) (v w : Nat) :
    xform v w s.du s.db = convertEqual v w s.inEnd s.outEnd := by
  obtain ⟨-, hdu, hdb, -⟩ := hc hp
  rw [convertEqual, hdu, hdb]

theorem inWidth_eq_outWidth (h : s.RegistersOk) (hc : s.ControlsOk) (hp : s.configured) (hm : s.mode = .eq) :
    s.inWidth.toNat = s.outWidth.toNat := by
  cases openCall_of_registersOk h hc hp with
  | eq n _ _ hiw how _ => rw [hiw, how]
  | imp _ _ hm' => exact absurd (hm.symm.trans hm') (by decide)
  | exp _ _ hm' => exact absurd (hm.symm.trans hm') (by decide)

/-- R154: at equal widths the port keeps the whole chunk. -/
theorem pushEqPath_of_call (h : s.RegistersOk) (hc : s.ControlsOk) (hp : s.phase = .run) (hm : s.mode = .eq)
    (hf : arg < 2 ^ s.inWidth.toNat) :
    pushEqPath arg s = s.appendChunks [convertEqual arg s.inWidth.toNat s.inEnd s.outEnd] := by
  obtain ⟨hiw, -⟩ := widths_of_registersOk h (.inl hp)
  obtain ⟨n, -, hn⟩ := isChunkWidth_iff.mp hiw
  have hlt : convertEqual arg s.inWidth.toNat s.inEnd s.outEnd < 2 ^ s.inWidth.toNat :=
    hn ▸ convertEqual_lt (hn ▸ hf) s.inEnd s.outEnd
  rw [pushEqPath_of_registersOk h hp hf, xform_eq_convertEqual hc (.inl hp),
    ← inWidth_eq_outWidth h hc (.inl hp) hm, Nat.mod_eq_of_lt hlt, State.appendChunks]

/-- The burst of R156 is `explode_chunk` (`44_exploder.md` R111), of chunks of the output width. -/
theorem explodeBurst_of_call (arg : Nat) (h : s.RegistersOk) (hc : s.ControlsOk) (hp : s.configured)
    (hm : s.mode = .exp) :
    explodeBurst s.lw s.du s.db s.inWidth.toNat s.outWidth.toNat s.k.toNat arg =
        explodeChunk arg s.inWidth.toNat s.inEnd s.outWidth.toNat s.outEnd ∧
      ∀ y ∈ explodeChunk arg s.inWidth.toNat s.inEnd s.outWidth.toNat s.outEnd, y < 2 ^ s.outWidth.toNat := by
  obtain ⟨-, hdu, hdb, hlw⟩ := hc hp
  have hlw : s.lw = unitIsLittle s.inEnd := by rw [hlw, hm, wideIsLittle]
  cases openCall_of_registersOk h hc hp with
  | eq _ _ hm' => exact absurd (hm.symm.trans hm') (by decide)
  | imp _ _ hm' => exact absurd (hm.symm.trans hm') (by decide)
  | exp n hn _ how hiw _ =>
    rw [how, hiw]
    refine ⟨?_, lt_of_mem_explodeChunk hn⟩
    rw [explodeChunk, hdu, hdb, hlw, Nat.mul_div_cancel _ (Nat.mul_pos (by decide) hn)]

theorem pushExpPath_of_call (arg : Nat) (h : s.RegistersOk) (hc : s.ControlsOk) (hp : s.phase = .run)
    (hm : s.mode = .exp) :
    pushExpPath arg s = s.appendChunks (explodeChunk arg s.inWidth.toNat s.inEnd s.outWidth.toNat s.outEnd) := by
  obtain ⟨-, -, hle⟩ := widths_of_registersOk h (.inl hp)
  obtain ⟨hchunk, hlt⟩ := explodeBurst_of_call arg h hc (.inl hp) hm
  rw [pushExpPath, exploded_eq arg h hc hp hm, hchunk, emit_eq_appendChunks hlt hle]

/-- The next sub-chunk index of a group fits the register (`10_state.md` R16). -/
theorem idx_add_one_toNat (h : s.idx.toNat < s.k.toNat) : (s.idx + 1).toNat = s.idx.toNat + 1 := by
  have := s.k.isLt
  rw [BitVec.toNat_add]
  exact Nat.mod_eq_of_lt (by simp; omega)

/-- A PUSH in range, the command or the row that the control word selects, runs the data path of the mode. -/
theorem exec_of_controlRow_run {i : Instr} (hp : s.phase = .run) (hf : arg < 2 ^ s.inWidth.toNat)
    (hi : i = .push arg ∨ ControlRow arg s.controlWord i) :
    exec i s = .next (pushPath arg s.takeCommand) := by
  have hpush : exec (.push arg) s = .next (pushPath arg s.takeCommand) := execPush_of_run hp hf
  rcases hi with rfl | hrow
  · exact hpush
  · exact (exec_push_eq_controlRow hrow fun _ => rfl).symm.trans hpush

end Call

/-! ## The statements -/

/-- Settles O39. -/
theorem pushEqEmitsOneChunk : Obligations.PushEqEmitsOneChunk := by
  rintro s arg ⟨hreg, hcontrols, -, -⟩ hp hm hf
  have hpath : pushPath arg s.takeCommand =
      { s.takeCommand with
        outputPort := s.outputPort ++ [convertEqual arg s.inWidth.toNat s.inEnd s.outEnd] } :=
    (pushPath_of_eq (s := s.takeCommand) arg hm).trans
      (pushEqPath_of_call (s := s.takeCommand) (registersOk_takeCommand hreg) hcontrols hp hm hf)
  have hrow : ControlRow arg s.controlWord (.pushEq s.du s.db arg) := by
    obtain ⟨-, -, -, hlw⟩ := hcontrols (.inl hp)
    rw [State.controlWord, hlw, hm]
    exact .eq s.du s.db
  refine ⟨_, (xform_eq_convertEqual hcontrols (.inl hp) arg _).symm, rfl, ?_, ?_⟩
  · exact (exec_of_controlRow_run hp hf (.inl rfl)).trans (congrArg Host.Outcome.next hpath)
  · exact (exec_of_controlRow_run hp hf (.inr hrow)).trans (congrArg Host.Outcome.next hpath)

/-- Settles O40: the accumulator takes the chunk as in the imploder's loop, and stays below `2 ^ OUT_WIDTH`. -/
theorem pushImpAccumulates : Obligations.PushImpAccumulates := by
  rintro s arg ⟨hreg, hcontrols, -, -⟩ hp hm hf
  refine ⟨s.accumulated arg, accumulated_eq hreg hcontrols hp hm hf, presented_lt .., fun i hi => ?_⟩
  have hrow : i = .push arg ∨ ControlRow arg s.controlWord i := by
    refine hi.imp_right fun h => ?_
    rw [h, State.controlWord, hm]
    exact .imp s.du s.db s.lw
  obtain ⟨-, -, -, ⟨hidx, -⟩, -, -⟩ := hreg
  rw [exec_of_controlRow_run hp hf hrow, pushPath_of_imp (s := s.takeCommand) arg hm, pushImpPath_eq]
  exact ⟨fun hlast => congrArg Host.Outcome.next (if_pos hlast),
    fun hinside => ⟨congrArg Host.Outcome.next (if_neg hinside), idx_add_one_toNat (hidx hp)⟩⟩

/-- Settles O41. -/
theorem pushExpEmitsKChunks : Obligations.PushExpEmitsKChunks := by
  rintro s arg ⟨hreg, hcontrols, -, -⟩ hp hm hf
  obtain ⟨hchunk, -⟩ := explodeBurst_of_call arg hreg hcontrols (.inl hp) hm
  refine ⟨explodeBurst s.lw s.du s.db s.inWidth.toNat s.outWidth.toNat s.k.toNat arg, ?_, rfl, hchunk,
    fun i hi => ?_⟩
  · rw [explodeBurst, List.length_map, List.length_range]
  · have hrow : i = .push arg ∨ ControlRow arg s.controlWord i := by
      refine hi.imp_right fun h => ?_
      rw [h, State.controlWord, hm]
      exact .exp s.du s.db s.lw
    rw [exec_of_controlRow_run hp hf hrow, pushPath_of_exp (s := s.takeCommand) arg hm,
      pushExpPath_of_call (s := s.takeCommand) arg (registersOk_takeCommand hreg) hcontrols hp hm, hchunk]
    rfl

end Sys2Proof.Machine
end

section
/-! Proofs of `47_commands.md`: a call from its first chunk on (R160, R163). The chunks a call has taken act one after
the other (`State.pushAll`), and in mode IMP the machine holds the open group in `IDX` and `ACC` (`State.withGroup`). -/

namespace Sys2Proof.Machine

/-! ## Groups of a stream -/

/-- The chunks of a stream whose group is not complete yet (`10_state.md` R16). -/
def openGroup (k : Nat) (xs : List Nat) : List Nat := xs.drop (xs.length / k * k)

theorem length_openGroup (k : Nat) (xs : List Nat) : (openGroup k xs).length = xs.length % k := by
  have := Nat.div_add_mod' xs.length k
  rw [openGroup, List.length_drop]
  omega

theorem openGroup_of_lt {k : Nat} {g : List Nat} (h : g.length < k) : openGroup k g = g := by
  rw [openGroup, Nat.div_eq_of_lt h, Nat.zero_mul, List.drop_zero]

/-- A complete group in front changes nothing. -/
theorem openGroup_append {k : Nat} (hk : 0 < k) {g : List Nat} (hg : g.length = k) (xs : List Nat) :
    openGroup k (g ++ xs) = openGroup k xs := by
  rw [openGroup, List.length_append, hg, Nat.add_div_left _ hk, Nat.succ_mul, Nat.add_comm, ← hg,
    List.drop_length_add_append, openGroup]

theorem length_implodeStream {n k : Nat} (hn : 0 < n) (xs : List Nat) (ie oe : Endianness) :
    (implodeStream xs (8 * n) ie (k * (8 * n)) oe).length = xs.length / k := by
  rw [implodeStream, List.length_map, List.length_range, Nat.mul_div_cancel k (Nat.mul_pos (by decide) hn)]

theorem implodeStream_of_lt {n k : Nat} (hn : 0 < n) {g : List Nat} (h : g.length < k) (ie oe : Endianness) :
    implodeStream g (8 * n) ie (k * (8 * n)) oe = [] := by
  rw [← List.length_eq_zero_iff, length_implodeStream hn, Nat.div_eq_of_lt h]

/-- The imploder reads the complete groups only. -/
theorem implodeStream_take {n k : Nat} (hn : 0 < n) (hk : 0 < k) (xs : List Nat) (ie oe : Endianness) :
    implodeStream (xs.take (xs.length / k * k)) (8 * n) ie (k * (8 * n)) oe =
      implodeStream xs (8 * n) ie (k * (8 * n)) oe := by
  have hlen : (xs.take (xs.length / k * k)).length = xs.length / k * k :=
    List.length_take_of_le (Nat.div_mul_le_self ..)
  simp only [implodeStream]
  rw [Nat.mul_div_cancel k (Nat.mul_pos (by decide) hn), hlen, Nat.mul_div_cancel _ hk]
  refine List.map_congr_left fun q hq => ?_
  have hend : k ≤ xs.length / k * k - q * k := by
    rw [← Nat.sub_mul]
    exact Nat.le_mul_of_pos_left k (Nat.sub_pos_of_lt (List.mem_range.mp hq))
  rw [groupOf, groupOf, List.drop_take, List.take_take, Nat.min_eq_left hend]

theorem implodeFrom_append (lw du db : Bool) (iw ow : Nat) (g g' : List Nat) :
    ∀ i acc : Nat, implodeFrom lw du db iw ow i acc (g ++ g') =
      implodeFrom lw du db iw ow (i + g.length) (implodeFrom lw du db iw ow i acc g) g' := by
  induction g with
  | nil => exact fun _ _ => rfl
  | cons x g ih =>
    intro i acc
    rw [List.cons_append, implodeFrom, ih, implodeFrom, List.length_cons, Nat.add_right_comm, Nat.add_assoc]

/-! ## The chunks of a call, one after the other -/

/-- The data paths of the chunks `xs`, in order. -/
def State.pushAll (s : State) (xs : List Nat) : State := xs.foldl (fun t x => pushPath x t) s

@[simp] theorem State.pushAll_nil (s : State) : s.pushAll [] = s := rfl

@[simp] theorem State.pushAll_cons (s : State) (x : Nat) (xs : List Nat) :
    s.pushAll (x :: xs) = (pushPath x s).pushAll xs := rfl

section Call

variable {s : State} {xs : List Nat}

theorem registersOk_appendChunks (h : s.RegistersOk) (burst : List Nat) : (s.appendChunks burst).RegistersOk :=
  registersOk_of_ports h ..

/-- Mode EQ (`45_equal_size.md` R122). -/
theorem pushAll_eq (h : s.RegistersOk) (hc : s.ControlsOk) (hp : s.phase = .run) (hm : s.mode = .eq)
    (hx : ∀ x ∈ xs, x < 2 ^ s.inWidth.toNat) :
    s.pushAll xs = s.appendChunks (convertStream xs s.inWidth.toNat s.inEnd s.outEnd) := by
  induction xs generalizing s with
  | nil => simp [convertStream]
  | cons x xs ih =>
    obtain ⟨hhead, htail⟩ := List.forall_mem_cons.mp hx
    rw [State.pushAll_cons, pushPath_of_eq x hm, pushEqPath_of_call h hc hp hm hhead,
      ih (registersOk_appendChunks h _) hc hp hm htail, appendChunks_appendChunks]
    rfl

/-- Mode EXP (`44_exploder.md` R112). -/
theorem pushAll_exp (xs : List Nat) (h : s.RegistersOk) (hc : s.ControlsOk) (hp : s.phase = .run)
    (hm : s.mode = .exp) :
    s.pushAll xs = s.appendChunks (explodeStream xs s.inWidth.toNat s.inEnd s.outWidth.toNat s.outEnd) := by
  induction xs generalizing s with
  | nil => simp [explodeStream]
  | cons x xs ih =>
    rw [State.pushAll_cons, pushPath_of_exp x hm, pushExpPath_of_call x h hc hp hm,
      ih (registersOk_appendChunks h _) hc hp hm, appendChunks_appendChunks]
    rfl

/-! ## Mode IMP: the open group in `IDX` and `ACC` -/

/-- The state that holds the chunks `g` of a group (`10_state.md` R16, R17). -/
def State.withGroup (s : State) (g : List Nat) : State :=
  { s with
    idx := BitVec.ofNat 32 g.length
    acc := implodeFrom s.lw s.du s.db s.inWidth.toNat s.outWidth.toNat 0 0 g }

theorem withGroup_nil (hidx : s.idx = 0) (hacc : s.acc = 0) : s.withGroup [] = s := by
  have hzero : BitVec.ofNat 32 0 = s.idx := hidx.symm
  rw [State.withGroup, implodeFrom, List.length_nil, hzero, ← hacc]

/-- An incomplete group has an index that fits the register. -/
theorem withGroup_idx_toNat {g : List Nat} (hg : g.length < s.k.toNat) : (s.withGroup g).idx.toNat = g.length := by
  have := s.k.isLt
  exact Nat.mod_eq_of_lt (by omega)

/-- `IDX` is the length of the stream modulo `K` (`10_state.md` R16). -/
theorem withGroup_openGroup_idx (hk : 0 < s.k.toNat) :
    (s.withGroup (openGroup s.k.toNat xs)).idx.toNat = xs.length % s.k.toNat := by
  have hlt : (openGroup s.k.toNat xs).length < s.k.toNat := (length_openGroup ..).trans_lt (Nat.mod_lt _ hk)
  rw [withGroup_idx_toNat hlt, length_openGroup]

theorem withGroup_acc_lt {g : List Nat} (h : s.RegistersOk) (hc : s.ControlsOk) (hp : s.configured)
    (hm : s.mode = .imp) (hg : g.length ≤ s.k.toNat) (hx : ∀ x ∈ g, x < 2 ^ s.inWidth.toNat) :
    (s.withGroup g).acc < 2 ^ s.outWidth.toNat := by
  cases openCall_of_registersOk h hc hp with
  | eq _ _ hm' => exact absurd (hm.symm.trans hm') (by decide)
  | exp _ _ hm' => exact absurd (hm.symm.trans hm') (by decide)
  | imp n _ _ hiw how _ =>
    simp only [State.withGroup]
    rw [hiw] at hx ⊢
    rw [how]
    exact implodeFrom_lt g (by omega) hx (Nat.two_pow_pos _)

/-- Inside a group the registers are those of `10_state.md` R22. -/
theorem registersOk_withGroup {g : List Nat} (h : s.RegistersOk) (hc : s.ControlsOk) (hp : s.phase = .run)
    (hm : s.mode = .imp) (hg : g.length < s.k.toNat) (hx : ∀ x ∈ g, x < 2 ^ s.inWidth.toNat) :
    (s.withGroup g).RegistersOk := by
  have hacc := withGroup_acc_lt h hc (.inl hp) hm hg.le hx
  have hidx := withGroup_idx_toNat hg
  obtain ⟨-, -, hopen, -⟩ := h
  refine ⟨?idle, ?err, hopen, ⟨fun _ => hidx.trans_lt hg, fun hm' => absurd hm hm'⟩, ?done, fun _ => hacc⟩
  all_goals exact fun hp' => absurd (hp.symm.trans hp') (by decide)

/-- The accumulator of a whole group is `implode_group` (`43_imploder.md` R101). -/
theorem withGroup_acc_eq_implodeGroup (hc : s.ControlsOk) (hp : s.configured) (hm : s.mode = .imp) (g : List Nat) :
    (s.withGroup g).acc = implodeGroup g s.inWidth.toNat s.inEnd s.outWidth.toNat s.outEnd := by
  obtain ⟨-, hdu, hdb, hlw⟩ := hc hp
  have hlw : s.lw = unitIsLittle s.outEnd := by rw [hlw, hm, wideIsLittle]
  rw [implodeGroup, ← hdu, ← hdb, ← hlw]
  rfl

theorem accumulated_withGroup {g : List Nat} {x : Nat} (h : s.RegistersOk) (hc : s.ControlsOk) (hp : s.phase = .run)
    (hm : s.mode = .imp) (hg : g.length < s.k.toNat) (hx : ∀ y ∈ g ++ [x], y < 2 ^ s.inWidth.toNat) :
    (s.withGroup g).accumulated x = (s.withGroup (g ++ [x])).acc := by
  obtain ⟨hgroup, hlast⟩ := List.forall_mem_append.mp hx
  have hreg := registersOk_withGroup h hc hp hm hg hgroup
  have hidx := withGroup_idx_toNat hg
  rw [accumulated_eq hreg hc hp hm (hlast x (List.mem_singleton.mpr rfl)), hidx]
  simp only [State.withGroup]
  rw [implodeFrom_append, Nat.zero_add]
  rfl

/-- A chunk joins the open group, and the last one of a group sends it off (`47_commands.md` R155). -/
theorem pushImpPath_withGroup {g : List Nat} {x : Nat} (h : s.RegistersOk) (hc : s.ControlsOk) (hp : s.phase = .run)
    (hm : s.mode = .imp) (hg : g.length < s.k.toNat) (hx : ∀ y ∈ g ++ [x], y < 2 ^ s.inWidth.toNat) :
    pushImpPath x (s.withGroup g) =
      if g.length + 1 = s.k.toNat then
        (s.appendChunks [implodeGroup (g ++ [x]) s.inWidth.toNat s.inEnd s.outWidth.toNat s.outEnd]).withGroup []
      else s.withGroup (g ++ [x]) := by
  have hnext : (s.withGroup g).idx + 1 = BitVec.ofNat 32 (g ++ [x]).length := by
    rw [List.length_append, List.length_singleton, BitVec.ofNat_add]
    rfl
  rw [pushImpPath_eq, accumulated_withGroup h hc hp hm hg hx, withGroup_idx_toNat hg, hnext,
    ← withGroup_acc_eq_implodeGroup hc (.inl hp) hm]
  rfl

/-- Mode IMP (`43_imploder.md` R102): the complete groups are emitted, the open one stays. -/
theorem pushAll_imp {g : List Nat} (h : s.RegistersOk) (hc : s.ControlsOk) (hp : s.phase = .run) (hm : s.mode = .imp)
    (hg : g.length < s.k.toNat) (hx : ∀ x ∈ g ++ xs, x < 2 ^ s.inWidth.toNat) :
    (s.withGroup g).pushAll xs =
      (s.appendChunks (implodeStream (g ++ xs) s.inWidth.toNat s.inEnd s.outWidth.toNat s.outEnd)).withGroup
        (openGroup s.k.toNat (g ++ xs)) := by
  cases openCall_of_registersOk h hc (.inl hp) with
  | eq _ _ hm' => exact absurd (hm.symm.trans hm') (by decide)
  | exp _ _ hm' => exact absurd (hm.symm.trans hm') (by decide)
  | imp n hn hm' hiw how hk =>
    clear hm'
    induction xs generalizing s g with
    | nil =>
      rw [List.append_nil, openGroup_of_lt hg, hiw, how, implodeStream_of_lt hn hg, appendChunks_nil,
        State.pushAll_nil]
    | cons x xs ih =>
      rw [List.append_cons] at hx ⊢
      obtain ⟨hgroup, hrest⟩ := List.forall_mem_append.mp hx
      rw [State.pushAll_cons, pushPath_of_imp (s := s.withGroup g) x hm,
        pushImpPath_withGroup h hc hp hm hg hgroup]
      by_cases hlast : g.length + 1 = s.k.toNat
      · have hlen : (g ++ [x]).length = s.k.toNat := by simpa using hlast
        have hempty : ([] : List Nat).length < s.k.toNat := by simp; omega
        rw [if_pos hlast, ih (g := []) (registersOk_appendChunks h _) hc hp hm hempty hrest hiw how hk,
          appendChunks_appendChunks, openGroup_append (by omega) hlen]
        simp only [State.appendChunks_inWidth, State.appendChunks_inEnd, State.appendChunks_outWidth,
          State.appendChunks_outEnd, State.appendChunks_k, List.nil_append, hiw, how,
          implodeStream_append hn (by omega : 0 < s.k.toNat) hlen, List.singleton_append]
      · rw [if_neg hlast]
        exact ih h hc hp hm (by simp; omega) hx hiw how hk

end Call

end Sys2Proof.Machine
end

section
/-! Proofs of `47_commands.md`: runs of a whole call (R160, R163): CFG opens a new call, the chunks in range act as
`State.pushAll`, and the first failure leaves the rest of the commands without effect. -/

namespace Sys2Proof.Machine

/-! ## Runs -/

theorem coreRun_succ {M : Host.Core} {s t : M.State} (h : M.step s = .next t) (n : Nat) :
    M.run (n + 1) s = M.run n t := by
  rw [Host.Core.run, h]

theorem run_succ {s t : State} (h : step s = .next t) (n : Nat) : run (n + 1) s = run n t :=
  coreRun_succ (M := core) h n

theorem run_add {a : Nat} {s t : State} (h : run a s = .next t) (b : Nat) : run (a + b) s = run b t := by
  induction a generalizing s with
  | zero =>
    injection h with h
    rw [h, Nat.zero_add]
  | succ a ih =>
    obtain ⟨u, hstep⟩ := exists_step s
    rw [run_succ hstep] at h
    rw [Nat.add_right_comm, run_succ hstep, ih h]

/-- The state with the given command words on the port. -/
def State.withCommands (s : State) (ws : List Nat) : State := { s with commandPort := ws }

@[simp] theorem State.withCommands_mode (s : State) (ws : List Nat) : (s.withCommands ws).mode = s.mode := rfl

theorem step_withCommands (s : State) (w : Nat) (ws : List Nat) :
    step (s.withCommands (w :: ws)) = exec (decode s.wMax w) (s.withCommands (w :: ws)) :=
  step_of_command rfl

/-! ## CFG -/

theorem configure_withCommands (s : State) (ws : List Nat) (iw : Width) (ie : Endianness) (ow : Width)
    (oe : Endianness) : (s.withCommands ws).configure iw ie ow oe = (s.configure iw ie ow oe).withCommands ws := by
  by_cases h : validate s.wMax iw.toNat ow.toNat = .none
  · rw [configure_of_legal ie oe h, configure_of_legal (s := s.withCommands ws) ie oe h]
    rfl
  · rw [configure_of_illegal ie oe h, configure_of_illegal (s := s.withCommands ws) ie oe h]
    rfl

theorem run_cfg (n : Nat) (s : State) (iw : Width) (ie : Endianness) (ow : Width) (oe : Endianness) (ws : List Nat) :
    run (n + 1) (s.withCommands ((encode s.wMax (.cfg iw ie ow oe)).word :: ws)) =
      run n ((s.configure iw ie ow oe).withCommands ws) := by
  refine run_succ ?_ n
  rw [step_withCommands, encode, Encoding.word, decode_cfg]
  exact congrArg Host.Outcome.next (configure_withCommands s ws iw ie ow oe)

/-- A call that has taken no chunk yet, in the registers that the dispatcher gives it. -/
structure NewCall (s : State) : Prop where
  registers : s.RegistersOk
  controls : s.ControlsOk
  phase : s.phase = .run
  idx : s.idx = 0
  acc : s.acc = 0

/-- An accepted CFG opens a new call, from every state (`47_commands.md` R152). -/
theorem newCall_configure {s : State} {iw ow : Width} (ie oe : Endianness)
    (hv : validate s.wMax iw.toNat ow.toNat = .none) : NewCall (s.configure iw ie ow oe) := by
  have hk := groupSize_toNat hv
  obtain ⟨-, -, hpos, -⟩ := select_bounds hv
  rw [← hk] at hpos
  rw [configure_of_legal ie oe hv]
  exact
    { registers := ⟨nofun, nofun, fun _ => ⟨rfl, select_mode_ne_none _ _, hpos, hv⟩,
        ⟨fun _ => hpos, fun _ => ⟨rfl, rfl⟩⟩, nofun, fun _ => Nat.two_pow_pos _⟩
      controls := fun _ => ⟨Prod.ext rfl hk.symm, rfl, rfl, rfl⟩
      phase := rfl
      idx := rfl
      acc := rfl }

/-! ## The chunks in range -/

theorem pushImpPath_withCommands (x : Nat) (s : State) (ws : List Nat) :
    pushImpPath x (s.withCommands ws) = (pushImpPath x s).withCommands ws := by
  by_cases hlast : s.idx.toNat + 1 = s.k.toNat
  · have hport : pushImpPath x s = _ := if_pos hlast
    rw [hport]
    exact if_pos hlast
  · have hport : pushImpPath x s = _ := if_neg hlast
    rw [hport]
    exact if_neg hlast

/-- A data path neither reads nor writes the commands that follow. -/
theorem pushPath_withCommands (x : Nat) (s : State) (ws : List Nat) :
    pushPath x (s.withCommands ws) = (pushPath x s).withCommands ws := by
  cases hm : s.mode <;> simp only [pushPath, hm, State.withCommands_mode]
  case imp => exact pushImpPath_withCommands x s ws
  all_goals rfl

@[simp] theorem pushPath_phase (x : Nat) (s : State) : (pushPath x s).phase = s.phase := by
  obtain ⟨idx, acc, out, heq⟩ := pushPath_frame x s
  rw [heq]

@[simp] theorem pushPath_wMax (x : Nat) (s : State) : (pushPath x s).wMax = s.wMax := by
  obtain ⟨idx, acc, out, heq⟩ := pushPath_frame x s
  rw [heq]

@[simp] theorem pushPath_inWidth (x : Nat) (s : State) : (pushPath x s).inWidth = s.inWidth := by
  obtain ⟨idx, acc, out, heq⟩ := pushPath_frame x s
  rw [heq]

/-- The chunks of a call write `IDX`, `ACC` and the output port only. -/
theorem pushAll_frame (xs : List Nat) (s : State) :
    ∃ idx acc out, s.pushAll xs = { s with idx := idx, acc := acc, outputPort := out } := by
  induction xs generalizing s with
  | nil => exact ⟨_, _, _, rfl⟩
  | cons x xs ih =>
    obtain ⟨idx, acc, out, heq⟩ := pushPath_frame x s
    rw [State.pushAll_cons, heq]
    exact ih _

/-- The PUSH of each chunk in range runs its data path (`47_commands.md` R153). -/
theorem run_pushWords {s : State} {xs : List Nat} (hp : s.phase = .run) (hwidth : s.inWidth.toNat ≤ s.wMax)
    (hx : ∀ x ∈ xs, x < 2 ^ s.inWidth.toNat) (rest : List Nat) :
    run xs.length (s.withCommands (xs.map (pushWord s.wMax) ++ rest)) =
      .next ((s.pushAll xs).withCommands rest) := by
  induction xs generalizing s with
  | nil => rfl
  | cons x xs ih =>
    obtain ⟨hhead, htail⟩ := List.forall_mem_cons.mp hx
    have harg : x < 2 ^ Config.argBits s.wMax :=
      hhead.trans_le (Nat.pow_le_pow_right (by decide) (hwidth.trans (wMax_le_argBits s.wMax)))
    have hstep : step (s.withCommands (pushWord s.wMax x :: (xs.map (pushWord s.wMax) ++ rest))) =
        .next ((pushPath x s).withCommands (xs.map (pushWord s.wMax) ++ rest)) := by
      rw [step_withCommands, decode_pushWord harg, ← pushPath_withCommands]
      exact execPush_of_run (s := s.withCommands _) hp hhead
    rw [List.map_cons, List.cons_append, List.length_cons, run_succ hstep, State.pushAll_cons, ← pushPath_wMax x s]
    exact ih (by simpa using hp) (by simpa using hwidth) (by simpa using htail)

/-! ## What the chunks in range leave -/

section NewCall

variable {s : State} {xs : List Nat}

theorem pushAll_imp_of_newCall (h : NewCall s) (hm : s.mode = .imp) (hx : ∀ x ∈ xs, x < 2 ^ s.inWidth.toNat) :
    s.pushAll xs =
      (s.appendChunks (implodeStream xs s.inWidth.toNat s.inEnd s.outWidth.toNat s.outEnd)).withGroup
        (openGroup s.k.toNat xs) := by
  obtain ⟨hreg, hcontrols, hp, hidx, hacc⟩ := h
  have hk : ([] : List Nat).length < s.k.toNat := by
    obtain ⟨-, -, hopen, -⟩ := hreg
    obtain ⟨-, -, hpos, -⟩ := hopen (.inl hp)
    exact hpos
  have hall := pushAll_imp (g := []) hreg hcontrols hp hm hk hx
  rwa [withGroup_nil hidx hacc] at hall

/-- The counts of R163 in the state `t` after the chunks `xs` of a call that had taken none. -/
structure CallCounts (t : State) (xs burst : List Nat) : Prop where
  eq : t.mode = .eq → burst.length = xs.length
  exp : t.mode = .exp → burst.length = t.k.toNat * xs.length
  imp : t.mode = .imp →
    burst.length = xs.length / t.k.toNat ∧ t.idx.toNat = xs.length % t.k.toNat ∧
      t.acc = implodeFrom t.lw t.du t.db t.inWidth.toNat t.outWidth.toNat 0 0 (openGroup t.k.toNat xs)

/-- The burst of a call's chunks and the counts, mode by mode. -/
theorem exists_pushAll_counts (h : NewCall s) (hx : ∀ x ∈ xs, x < 2 ^ s.inWidth.toNat) :
    ∃ burst, (s.pushAll xs).outputPort = s.outputPort ++ burst ∧ CallCounts (s.pushAll xs) xs burst := by
  have ⟨hreg, hcontrols, hp, _, _⟩ := h
  cases openCall_of_registersOk hreg hcontrols (.inl hp) with
  | eq n hn hm _ _ _ =>
    rw [pushAll_eq hreg hcontrols hp hm hx]
    refine ⟨_, rfl, fun _ => List.length_map .., ?_, ?_⟩
    all_goals exact fun hm' => absurd (hm.symm.trans hm') (by decide)
  | exp n hn hm how hiw _ =>
    rw [pushAll_exp xs hreg hcontrols hp hm]
    have hlen : (explodeStream xs s.inWidth.toNat s.inEnd s.outWidth.toNat s.outEnd).length =
        s.k.toNat * xs.length := by
      rw [how, hiw, length_explodeStream hn, Nat.mul_comm]
    refine ⟨_, rfl, ?_, fun _ => hlen, ?_⟩
    all_goals exact fun hm' => absurd (hm.symm.trans hm') (by decide)
  | imp n hn hm hiw how hk =>
    rw [pushAll_imp_of_newCall h hm hx]
    have hlen : (implodeStream xs s.inWidth.toNat s.inEnd s.outWidth.toNat s.outEnd).length =
        xs.length / s.k.toNat := by
      rw [hiw, how, length_implodeStream hn]
    have hidx := withGroup_openGroup_idx (s := s) (xs := xs) (by omega)
    refine ⟨_, rfl, ?_, ?_, fun _ => ⟨hlen, hidx, rfl⟩⟩
    all_goals exact fun hm' => absurd (hm.symm.trans hm') (by decide)

end NewCall

theorem configure_registers (s : State) (iw : Width) (ie : Endianness) (ow : Width) (oe : Endianness) :
    (s.configure iw ie ow oe).inWidth = iw ∧ (s.configure iw ie ow oe).outWidth = ow ∧
      (s.configure iw ie ow oe).inEnd = ie ∧ (s.configure iw ie ow oe).outEnd = oe := by
  by_cases h : validate s.wMax iw.toNat ow.toNat = .none
  · rw [configure_of_legal ie oe h]
    exact ⟨rfl, rfl, rfl, rfl⟩
  · rw [configure_of_illegal ie oe h]
    exact ⟨rfl, rfl, rfl, rfl⟩

/-- Settles O59: the run is CFG and then `State.pushAll`, whose counts are those of each mode. -/
theorem countsInTheMiddleOfACall : Obligations.CountsInTheMiddleOfACall := by
  intro s xs iw ow ie oe rest hv hx
  have hcall := newCall_configure ie oe hv
  obtain ⟨hiw, how, -, -⟩ := configure_registers s iw ie ow oe
  obtain ⟨-, -, hwidth, -⟩ := validate_eq_none_iff.mp hv
  have hrun := run_pushWords (xs := xs) hcall.phase (by simpa [hiw] using hwidth) (by rwa [hiw]) rest
  obtain ⟨idx, acc, out, hframe⟩ := pushAll_frame xs (s.configure iw ie ow oe)
  obtain ⟨burst, hout, heq, hexp, himp⟩ := exists_pushAll_counts hcall (by rwa [hiw])
  rw [State.configure_wMax, ← run_cfg] at hrun
  rw [State.configure_outputPort] at hout
  rw [hframe] at hrun hout heq hexp himp
  simp only [hiw, how] at himp
  exact ⟨_, burst, hrun, hcall.phase, rfl, hout, heq, hexp, himp⟩

end Sys2Proof.Machine
end

section
/-! Proofs of `47_commands.md`: a whole call is `pack` (R160). The chunks before the first one out of range leave the
output of `pack` for their whole groups, then END or the first failure decides the outcome. -/

namespace Sys2Proof.Machine

/-! ## The chunks that have an output -/

/-- A stream without its open group, which only the imploder has (`47_commands.md` R160 item 3). -/
def wholeGroups (iw ow : Nat) (xs : List Nat) : List Nat :=
  if iw < ow then xs.take (xs.length / (ow / iw) * (ow / iw)) else xs

/-- A stream ends inside a group of the imploder (`43_imploder.md` R102). -/
def EndsInGroup (iw ow : Nat) (xs : List Nat) : Prop := iw < ow ∧ xs.length % (ow / iw) ≠ 0

theorem wholeGroups_of_not_endsInGroup {iw ow : Nat} {xs : List Nat} (h : ¬EndsInGroup iw ow xs) :
    wholeGroups iw ow xs = xs := by
  rw [wholeGroups]
  split_ifs with hlt
  · have hlen : xs.length % (ow / iw) = 0 := not_not.mp fun hne => h ⟨hlt, hne⟩
    rw [Nat.div_mul_cancel (Nat.dvd_of_mod_eq_zero hlen), List.take_length]
  · rfl

theorem completedPrefix_of_inRange {xs : List Nat} {iw : Nat} (ow : Nat) (hx : ∀ x ∈ xs, x < 2 ^ iw) :
    completedPrefix xs iw ow = wholeGroups iw ow xs := by
  have hall : xs.takeWhile (fun x => decide (x < 2 ^ iw)) = xs :=
    List.takeWhile_eq_self_iff.mpr fun x h => decide_eq_true (hx x h)
  simp only [completedPrefix, hall, wholeGroups]

/-- From the first chunk out of range on, nothing has an output. -/
theorem completedPrefix_append_cons {good more : List Nat} {bad iw : Nat} (ow : Nat)
    (hgood : ∀ x ∈ good, x < 2 ^ iw) (hbad : 2 ^ iw ≤ bad) :
    completedPrefix (good ++ bad :: more) iw ow = wholeGroups iw ow good := by
  have hstop : (good ++ bad :: more).takeWhile (fun x => decide (x < 2 ^ iw)) = good := by
    rw [List.takeWhile_append_of_pos fun x h => decide_eq_true (hgood x h),
      List.takeWhile_cons_of_neg (by simpa using hbad), List.append_nil]
  simp only [completedPrefix, hstop, wholeGroups]

theorem exists_first_outOfRange {xs : List Nat} {iw : Nat} (h : ¬∀ x ∈ xs, x < 2 ^ iw) :
    ∃ good bad more, xs = good ++ bad :: more ∧ (∀ x ∈ good, x < 2 ^ iw) ∧ 2 ^ iw ≤ bad := by
  push Not at h
  obtain ⟨x, hx, hle⟩ := h
  have hfound : (xs.find? fun x => decide (2 ^ iw ≤ x)).isSome := by
    rw [List.find?_isSome]
    exact ⟨x, hx, decide_eq_true hle⟩
  obtain ⟨bad, hfind⟩ := Option.isSome_iff_exists.mp hfound
  obtain ⟨hbad, good, more, heq, hgood⟩ := List.find?_eq_some_iff_append.mp hfind
  exact ⟨good, bad, more, heq, fun x hx => by simpa using hgood x hx, of_decide_eq_true hbad⟩

/-- What the chunks of a call in range leave: the output of `pack` for their whole groups, and in `IDX` whether a group
is open. -/
structure ChunksTaken (s t : State) (xs burst : List Nat) : Prop where
  frame : ∃ idx acc, t = { s with idx := idx, acc := acc, outputPort := s.outputPort ++ burst }
  output : pack s.wMax (wholeGroups s.inWidth.toNat s.outWidth.toNat xs) s.inWidth.toNat s.inEnd s.outWidth.toNat
    s.outEnd = .ok burst
  idx : s.mode = .imp ∧ t.idx ≠ 0 ↔ EndsInGroup s.inWidth.toNat s.outWidth.toNat xs

theorem exists_chunksTaken {s : State} {xs : List Nat} (h : NewCall s) (hx : ∀ x ∈ xs, x < 2 ^ s.inWidth.toNat) :
    ∃ burst, ChunksTaken s (s.pushAll xs) xs burst := by
  have ⟨hreg, hcontrols, hp, _, _⟩ := h
  have ⟨_, _, hopen, _⟩ := hreg
  obtain ⟨-, -, -, hlegal⟩ := hopen (.inl hp)
  cases openCall_of_registersOk hreg hcontrols (.inl hp) with
  | eq n hn hm hiw how _ =>
    have hwhole : ¬EndsInGroup s.inWidth.toNat s.outWidth.toNat xs := fun ⟨hlt, _⟩ => by omega
    refine ⟨_, ⟨_, _, pushAll_eq hreg hcontrols hp hm hx⟩, ?_, iff_of_false (fun ⟨hm', _⟩ => ?_) hwhole⟩
    · rw [wholeGroups_of_not_endsInGroup hwhole]
      refine pack_eq_ok_iff.mpr ⟨hlegal, ?_⟩
      rw [hiw] at hx
      rw [hiw, how]
      exact .eq n xs _ _ hn hx
    · exact absurd (hm.symm.trans hm') (by decide)
  | exp n hn hm how hiw hk =>
    have hwider := lt_mul_of_two_le (a := 8 * n) (by omega) hk
    have hwhole : ¬EndsInGroup s.inWidth.toNat s.outWidth.toNat xs := fun ⟨hlt, _⟩ => by omega
    refine ⟨_, ⟨_, _, pushAll_exp xs hreg hcontrols hp hm⟩, ?_, iff_of_false (fun ⟨hm', _⟩ => ?_) hwhole⟩
    · rw [wholeGroups_of_not_endsInGroup hwhole]
      refine pack_eq_ok_iff.mpr ⟨hlegal, ?_⟩
      rw [hiw] at hx
      rw [hiw, how]
      exact .exp n _ xs _ _ hn hk hx
    · exact absurd (hm.symm.trans hm') (by decide)
  | imp n hn hm hiw how hk =>
    have hlt := lt_mul_of_two_le (a := 8 * n) (by omega) hk
    have hidx := withGroup_openGroup_idx (s := s) (xs := xs) (by omega)
    rw [pushAll_imp_of_newCall h hm hx]
    refine ⟨_, ⟨_, _, rfl⟩, ?_, ?_⟩
    · refine pack_eq_ok_iff.mpr ⟨hlegal, ?_⟩
      rw [hiw] at hx
      rw [hiw, how, wholeGroups, if_pos hlt, Nat.mul_div_cancel _ (Nat.mul_pos (by decide) hn),
        ← implodeStream_take hn (by omega)]
      refine .imp n _ _ _ _ hn hk (fun x h => hx x (List.mem_of_mem_take h)) ?_
      rw [List.length_take_of_le (Nat.div_mul_le_self ..), Nat.mul_mod_left]
    · rw [EndsInGroup, hiw, how, Nat.mul_div_cancel _ (Nat.mul_pos (by decide) hn), ← hidx]
      refine and_congr (iff_of_true hm hlt) (not_congr ?_)
      exact BitVec.toNat_inj.symm

/-! ## The end of a call -/

/-- The command word of END. -/
def endWord (wMax : Nat) : Nat := commandWord wMax 0x3#4 0

/-- The command words of a call after its CFG (`30_encoding.md` R63). -/
def closingWords (wMax : Nat) (xs : List Nat) : List Nat := xs.map (pushWord wMax) ++ [endWord wMax]

theorem callWords_eq (wMax : Nat) (xs : List Nat) (iw : Width) (ie : Endianness) (ow : Width) (oe : Endianness) :
    callWords wMax xs iw ie ow oe = (encode wMax (.cfg iw ie ow oe)).word :: closingWords wMax xs := by
  simp [callWords, callCommands, closingWords, encode, Encoding.word, endWord, Function.comp_def]

/-- In phase ERR the chunks and the END of a call change nothing (`60_exceptions.md` R201). -/
theorem run_err {s : State} (hp : s.phase = .err) {xs : List Nat} (hx : ∀ x ∈ xs, x < 2 ^ Config.argBits s.wMax)
    (rest : List Nat) :
    run (xs.length + 1) (s.withCommands (closingWords s.wMax xs ++ rest)) = .next (s.withCommands rest) := by
  induction xs with
  | nil =>
    have hstep : step (s.withCommands (endWord s.wMax :: rest)) = .next (s.withCommands rest) := by
      rw [step_withCommands, endWord, decode_endStream]
      exact errPhaseIsSticky (s.withCommands _) .endStream hp nofun nofun
    exact run_succ hstep 0
  | cons x xs ih =>
    obtain ⟨hhead, htail⟩ := List.forall_mem_cons.mp hx
    have hstep : step (s.withCommands (pushWord s.wMax x :: (closingWords s.wMax xs ++ rest))) =
        .next (s.withCommands (closingWords s.wMax xs ++ rest)) := by
      rw [step_withCommands, decode_pushWord hhead]
      exact errPhaseIsSticky (s.withCommands _) (.push x) hp nofun nofun
    exact (run_succ hstep (xs.length + 1)).trans (ih htail)

/-- The outcome of a call of the chunks `xs` opened in `s` (`47_commands.md` R160). -/
inductive CallEnds (s t : State) (xs burst : List Nat) : Prop where
  | done : pack s.wMax xs s.inWidth.toNat s.inEnd s.outWidth.toNat s.outEnd = .ok burst → t.phase = .done →
      t.cause = .none → CallEnds s t xs burst
  | failed (c : Cause) : pack s.wMax xs s.inWidth.toNat s.inEnd s.outWidth.toNat s.outEnd = .err c →
      t.phase = .err → t.cause = c →
      pack s.wMax (completedPrefix xs s.inWidth.toNat s.outWidth.toNat) s.inWidth.toNat s.inEnd s.outWidth.toNat
        s.outEnd = .ok burst → CallEnds s t xs burst

theorem NewCall.legal {s : State} (h : NewCall s) :
    s.cause = .none ∧ validate s.wMax s.inWidth.toNat s.outWidth.toNat = .none ∧ s.inWidth.toNat ≤ s.wMax := by
  obtain ⟨-, -, hopen, -⟩ := h.registers
  obtain ⟨hcause, -, -, hlegal⟩ := hopen (.inl h.phase)
  obtain ⟨-, -, hwidth, -⟩ := validate_eq_none_iff.mp hlegal
  exact ⟨hcause, hlegal, hwidth⟩

/-- The chunks in range of a call are taken, and what follows them is run from there. -/
theorem run_chunks {s : State} {xs : List Nat} (h : NewCall s) (hx : ∀ x ∈ xs, x < 2 ^ s.inWidth.toNat)
    (ws : List Nat) (n : Nat) :
    run (xs.length + n) (s.withCommands (xs.map (pushWord s.wMax) ++ ws)) =
      run n ((s.pushAll xs).withCommands ws) := by
  obtain ⟨-, -, hwidth⟩ := h.legal
  exact run_add (run_pushWords h.phase hwidth hx ws) n

/-- All chunks in range: END finds a partial group or closes the call (`47_commands.md` R157). -/
theorem run_inRange {s : State} {xs : List Nat} (h : NewCall s) (hx : ∀ x ∈ xs, x < 2 ^ s.inWidth.toNat)
    (rest : List Nat) :
    ∃ t burst, run (xs.length + 1) (s.withCommands (closingWords s.wMax xs ++ rest)) = .next t ∧
      t.commandPort = rest ∧ t.outputPort = s.outputPort ++ burst ∧ CallEnds s t xs burst := by
  obtain ⟨hcause, hlegal, -⟩ := h.legal
  obtain ⟨burst, ⟨idx, acc, hframe⟩, houtput, hidx⟩ := exists_chunksTaken h hx
  have hstep : step ((s.pushAll xs).withCommands (endWord s.wMax :: rest)) =
      execEndStream ((s.pushAll xs).withCommands (endWord s.wMax :: rest)) := by
    rw [hframe, step_withCommands, endWord, decode_endStream]
    rfl
  rw [closingWords, List.append_assoc, List.singleton_append, run_chunks h hx]
  rw [hframe] at hstep hidx ⊢
  by_cases hends : EndsInGroup s.inWidth.toNat s.outWidth.toNat xs
  · obtain ⟨hm, hne⟩ := hidx.mpr hends
    obtain ⟨hlt, hlen⟩ := hends
    refine ⟨_, burst, run_succ (hstep.trans (execEndStream_partial h.phase hm hne)) 0, rfl, rfl, ?_⟩
    refine .failed .incompleteGroup (pack_of_partialGroup _ _ hlegal hx hlt hlen) rfl rfl ?_
    rwa [completedPrefix_of_inRange _ hx]
  · have hwhole : s.mode ≠ .imp ∨ idx = 0 := by
      by_contra hboth
      rw [not_or, not_not] at hboth
      exact hends (hidx.mp hboth)
    refine ⟨_, burst, run_succ (hstep.trans (execEndStream_whole h.phase hwhole)) 0, rfl, rfl, .done ?_ rfl hcause⟩
    rwa [wholeGroups_of_not_endsInGroup hends] at houtput

/-- A chunk out of range fails the call, and the commands after it change nothing (`47_commands.md` R153). -/
theorem run_outOfRange {s : State} {good more : List Nat} {bad : Nat} (h : NewCall s)
    (hgood : ∀ x ∈ good, x < 2 ^ s.inWidth.toNat) (hbad : 2 ^ s.inWidth.toNat ≤ bad)
    (hargs : ∀ x ∈ bad :: more, x < 2 ^ Config.argBits s.wMax) (rest : List Nat) :
    ∃ t burst,
      run ((good ++ bad :: more).length + 1)
        (s.withCommands (closingWords s.wMax (good ++ bad :: more) ++ rest)) = .next t ∧
      t.commandPort = rest ∧ t.outputPort = s.outputPort ++ burst ∧ CallEnds s t (good ++ bad :: more) burst := by
  obtain ⟨-, hlegal, -⟩ := h.legal
  obtain ⟨hbadArg, hmoreArgs⟩ := List.forall_mem_cons.mp hargs
  obtain ⟨burst, ⟨idx, acc, hframe⟩, houtput, -⟩ := exists_chunksTaken h hgood
  have hwords : closingWords s.wMax (good ++ bad :: more) ++ rest =
      good.map (pushWord s.wMax) ++ (pushWord s.wMax bad :: (closingWords s.wMax more ++ rest)) := by
    simp [closingWords]
  have hlen : (good ++ bad :: more).length + 1 = good.length + ((more.length + 1) + 1) := by
    rw [List.length_append, List.length_cons, Nat.add_assoc]
  have hstep : step ((s.pushAll good).withCommands (pushWord s.wMax bad :: (closingWords s.wMax more ++ rest))) =
      .next (((s.pushAll good).raise .chunkRange).withCommands (closingWords s.wMax more ++ rest)) := by
    rw [hframe, step_withCommands, decode_pushWord hbadArg]
    exact (execPush_eq bad _).trans (pushTested_range h.phase hbad)
  have hmax : ((s.pushAll good).raise .chunkRange).wMax = s.wMax := by
    rw [hframe]
    rfl
  have htail := run_err (s := (s.pushAll good).raise .chunkRange) rfl (hmax ▸ hmoreArgs) rest
  rw [hmax] at htail
  rw [hwords, hlen, run_chunks h hgood, run_succ hstep]
  refine ⟨_, burst, htail, rfl, congrArg State.outputPort hframe, ?_⟩
  refine .failed .chunkRange (pack_of_outOfRange _ _ hlegal ⟨bad, by simp, hbad⟩) rfl rfl ?_
  rwa [completedPrefix_append_cons _ hgood hbad]

/-- A new call ends as `pack` says, whatever its chunks are. -/
theorem run_newCall {s : State} {xs : List Nat} (h : NewCall s) (hx : ∀ x ∈ xs, x < 2 ^ Config.argBits s.wMax)
    (rest : List Nat) :
    ∃ t burst, run (xs.length + 1) (s.withCommands (closingWords s.wMax xs ++ rest)) = .next t ∧
      t.commandPort = rest ∧ t.outputPort = s.outputPort ++ burst ∧ CallEnds s t xs burst := by
  by_cases hrange : ∀ x ∈ xs, x < 2 ^ s.inWidth.toNat
  · exact run_inRange h hrange rest
  · obtain ⟨good, bad, more, rfl, hgood, hbad⟩ := exists_first_outOfRange hrange
    obtain ⟨-, hargs⟩ := List.forall_mem_append.mp hx
    exact run_outOfRange h hgood hbad hargs rest

/-- Settles O60: CFG enters phase ERR, where nothing more happens, or opens a new call. -/
theorem machineRefinesPack : Obligations.MachineRefinesPack := by
  intro s xs iw ow ie oe rest hx
  have hmax := State.configure_wMax s iw ie ow oe
  have hout := State.configure_outputPort s iw ie ow oe
  have hcfg := run_cfg (xs.length + 1) s iw ie ow oe (closingWords s.wMax xs ++ rest)
  rw [← List.cons_append, ← callWords_eq] at hcfg
  by_cases hv : validate s.wMax iw.toNat ow.toNat = .none
  · obtain ⟨hiw, how, hie, hoe⟩ := configure_registers s iw ie ow oe
    obtain ⟨t, burst, hrun, hport, hburst, hends⟩ := run_newCall (newCall_configure ie oe hv) (hmax ▸ hx) rest
    rw [hmax] at hrun
    rw [hout] at hburst
    refine ⟨t, burst, hcfg.trans hrun, hport, hburst, ?_⟩
    cases hends with
    | done hpack hp hc =>
      rw [hmax, hiw, how, hie, hoe] at hpack
      rw [hpack]
      exact ⟨hp, hc, rfl⟩
    | failed c hpack hp hc hlate =>
      rw [hmax, hiw, how, hie, hoe] at hpack hlate
      rw [hpack]
      exact ⟨hp, hc, fun hne => absurd hv hne, fun _ => hlate⟩
  · obtain ⟨hcause, hphase⟩ := configure_phase s iw ie ow oe
    rw [if_neg hv] at hphase
    have htail := run_err hphase (hmax ▸ hx) rest
    rw [hmax] at htail
    refine ⟨_, [], hcfg.trans htail, rfl, ?_, ?_⟩
    · rw [List.append_nil]
      exact hout
    · rw [pack_of_illegal ie oe hv]
      exact ⟨hphase, hcause, fun _ => rfl, fun hlegal => absurd hlegal hv⟩

end Sys2Proof.Machine
end
